-- ==== Sys2Proof/Word.lean ====
section
/-!
DEFINITION. The word types of the machine: what the spec treats as bits (00_scope.md R5, R7).
Every value is unsigned and nothing is ever sign-extended (R7, 30_encoding.md R62).
-/

namespace Sys2Proof

/-- A byte: a general register, a memory cell, a timer, an immediate `kk`. -/
abbrev Byte := BitVec 8

/-- A 16-bit value: an opcode, `PC`, `I`, a stack slot. -/
abbrev Word := BitVec 16

/-- A 4-bit opcode field: a register index `x` or `y`, a row count `n`, a class (30_encoding.md R61);
also the stack pointer (10_state.md R17). -/
abbrev Nibble := BitVec 4

/-- The 12-bit address operand `nnn` (30_encoding.md R61). -/
abbrev Addr12 := BitVec 12

/-- The sixteen keys, bit `k` set when key `k` is down (10_state.md R21). -/
abbrev Keys := BitVec 16

end Sys2Proof
end

