-- ==== Sys2Proof/Syntax.lean ====
section
/-!
DEFINITION. The 35 instructions of 30_encoding.md R64, one constructor per row of the opcode table, in its order,
with the fields the row's pattern shows (R61, R63).
-/

namespace Sys2Proof

/-- One constructor per row of the opcode table (30_encoding.md R64). -/
inductive Instr where
  /-- 0nnn, `SYS nnn` (41_control_flow.md R101). -/
  | sys (nnn : Addr12)
  /-- 00E0, `CLS` (44_display.md R151). -/
  | cls
  /-- 00EE, `RET` (41_control_flow.md R102). -/
  | ret
  /-- 1nnn, `JP nnn` (41_control_flow.md R103). -/
  | jp (nnn : Addr12)
  /-- 2nnn, `CALL nnn` (41_control_flow.md R104). -/
  | call (nnn : Addr12)
  /-- 3xkk, `SE Vx, kk` (41_control_flow.md R105). -/
  | seImm (x : Nibble) (kk : Byte)
  /-- 4xkk, `SNE Vx, kk` (41_control_flow.md R106). -/
  | sneImm (x : Nibble) (kk : Byte)
  /-- 5xy0, `SE Vx, Vy` (41_control_flow.md R107). -/
  | seReg (x y : Nibble)
  /-- 6xkk, `LD Vx, kk` (42_alu.md R122). -/
  | ldImm (x : Nibble) (kk : Byte)
  /-- 7xkk, `ADD Vx, kk` (42_alu.md R123). -/
  | addImm (x : Nibble) (kk : Byte)
  /-- 8xy0, `LD Vx, Vy` (42_alu.md R124). -/
  | ldReg (x y : Nibble)
  /-- 8xy1, `OR Vx, Vy` (42_alu.md R125). -/
  | orReg (x y : Nibble)
  /-- 8xy2, `AND Vx, Vy` (42_alu.md R126). -/
  | andReg (x y : Nibble)
  /-- 8xy3, `XOR Vx, Vy` (42_alu.md R127). -/
  | xorReg (x y : Nibble)
  /-- 8xy4, `ADD Vx, Vy` (42_alu.md R128). -/
  | addReg (x y : Nibble)
  /-- 8xy5, `SUB Vx, Vy` (42_alu.md R129). -/
  | sub (x y : Nibble)
  /-- 8xy6, `SHR Vx` (42_alu.md R130); `y` is decoded and ignored (30_encoding.md R68). -/
  | shr (x y : Nibble)
  /-- 8xy7, `SUBN Vx, Vy` (42_alu.md R131). -/
  | subn (x y : Nibble)
  /-- 8xyE, `SHL Vx` (42_alu.md R132); `y` is decoded and ignored (30_encoding.md R68). -/
  | shl (x y : Nibble)
  /-- 9xy0, `SNE Vx, Vy` (41_control_flow.md R108). -/
  | sneReg (x y : Nibble)
  /-- Annn, `LD I, nnn` (43_index_memory.md R140). -/
  | ldI (nnn : Addr12)
  /-- Bnnn, `JP V0, nnn` (41_control_flow.md R109). -/
  | jpV0 (nnn : Addr12)
  /-- Cxkk, `RND Vx, kk` (42_alu.md R133). -/
  | rnd (x : Nibble) (kk : Byte)
  /-- Dxyn, `DRW Vx, Vy, n` (44_display.md R152). -/
  | drw (x y n : Nibble)
  /-- Ex9E, `SKP Vx` (45_keypad_timers.md R160). -/
  | skp (x : Nibble)
  /-- ExA1, `SKNP Vx` (45_keypad_timers.md R161). -/
  | sknp (x : Nibble)
  /-- Fx07, `LD Vx, DT` (45_keypad_timers.md R162). -/
  | ldVxDt (x : Nibble)
  /-- Fx0A, `LD Vx, K` (45_keypad_timers.md R163). -/
  | ldVxK (x : Nibble)
  /-- Fx15, `LD DT, Vx` (45_keypad_timers.md R164). -/
  | ldDtVx (x : Nibble)
  /-- Fx18, `LD ST, Vx` (45_keypad_timers.md R165). -/
  | ldStVx (x : Nibble)
  /-- Fx1E, `ADD I, Vx` (43_index_memory.md R141). -/
  | addI (x : Nibble)
  /-- Fx29, `LD F, Vx` (43_index_memory.md R142). -/
  | ldF (x : Nibble)
  /-- Fx33, `LD B, Vx` (43_index_memory.md R143). -/
  | ldB (x : Nibble)
  /-- Fx55, `LD [I], Vx` (43_index_memory.md R144). -/
  | ldMemVx (x : Nibble)
  /-- Fx65, `LD Vx, [I]` (43_index_memory.md R145). -/
  | ldVxMem (x : Nibble)
deriving DecidableEq, Repr

end Sys2Proof
end

