-- ==== Sys2Proof/Decode.lean ====
section
/-!
DEFINITION. The decoder (30_encoding.md R61, R64 to R68), total on any bytes and rejecting by name; the encoder, its
inverse (R70); and the opcode table of R64 as rows of mask and match, a second description the claims hold the
decoder against.
-/

namespace Sys2Proof

/-! ## Fields (30_encoding.md R61) -/

/-- The class, bits 15:12. -/
def fieldClass (w : Word) : Nibble := w.extractLsb' 12 4
/-- The field `x`, bits 11:8. -/
def fieldX (w : Word) : Nibble := w.extractLsb' 8 4
/-- The field `y`, bits 7:4. -/
def fieldY (w : Word) : Nibble := w.extractLsb' 4 4
/-- The field `n`, bits 3:0. -/
def fieldN (w : Word) : Nibble := w.extractLsb' 0 4
/-- The field `kk`, bits 7:0. -/
def fieldKK (w : Word) : Byte := w.extractLsb' 0 8
/-- The field `nnn`, bits 11:0. -/
def fieldNNN (w : Word) : Addr12 := w.extractLsb' 0 12

/-! ## Decoding -/

/-- Why no instruction is decoded. The five classes with unknown words are those of 30_encoding.md R66. -/
inductive DecodeError where
  /-- Fewer than two bytes: every instruction is two (30_encoding.md R60). The tick never meets it. -/
  | truncated
  /-- Class 5 with `n` not 0. -/
  | unknownClass5
  /-- Class 8 with `n` in 8, 9, A, B, C, D, F. -/
  | unknownClass8
  /-- Class 9 with `n` not 0. -/
  | unknownClass9
  /-- Class E with `kk` neither 9E nor A1. -/
  | unknownClassE
  /-- Class F with `kk` not one of the nine sub-functions. -/
  | unknownClassF
deriving DecidableEq, Repr

/-- Class 0: CLS and RET are tested before SYS (30_encoding.md R65). -/
def decodeClass0 (w : Word) : Instr :=
  if fieldNNN w = 0x0E0#12 then .cls
  else if fieldNNN w = 0x0EE#12 then .ret
  else .sys (fieldNNN w)

/-- Class 8: the low nibble selects (30_encoding.md R64 rows 11 to 19). -/
def decodeClass8 (w : Word) : Except DecodeError Instr :=
  let x := fieldX w
  let y := fieldY w
  if fieldN w = 0x0#4 then .ok (.ldReg x y)
  else if fieldN w = 0x1#4 then .ok (.orReg x y)
  else if fieldN w = 0x2#4 then .ok (.andReg x y)
  else if fieldN w = 0x3#4 then .ok (.xorReg x y)
  else if fieldN w = 0x4#4 then .ok (.addReg x y)
  else if fieldN w = 0x5#4 then .ok (.sub x y)
  else if fieldN w = 0x6#4 then .ok (.shr x y)
  else if fieldN w = 0x7#4 then .ok (.subn x y)
  else if fieldN w = 0xE#4 then .ok (.shl x y)
  else .error .unknownClass8

/-- Class E: the low byte selects (30_encoding.md R64 rows 25, 26). -/
def decodeClassE (w : Word) : Except DecodeError Instr :=
  if fieldKK w = 0x9E#8 then .ok (.skp (fieldX w))
  else if fieldKK w = 0xA1#8 then .ok (.sknp (fieldX w))
  else .error .unknownClassE

/-- Class F: the low byte selects (30_encoding.md R64 rows 27 to 35). -/
def decodeClassF (w : Word) : Except DecodeError Instr :=
  let x := fieldX w
  if fieldKK w = 0x07#8 then .ok (.ldVxDt x)
  else if fieldKK w = 0x0A#8 then .ok (.ldVxK x)
  else if fieldKK w = 0x15#8 then .ok (.ldDtVx x)
  else if fieldKK w = 0x18#8 then .ok (.ldStVx x)
  else if fieldKK w = 0x1E#8 then .ok (.addI x)
  else if fieldKK w = 0x29#8 then .ok (.ldF x)
  else if fieldKK w = 0x33#8 then .ok (.ldB x)
  else if fieldKK w = 0x55#8 then .ok (.ldMemVx x)
  else if fieldKK w = 0x65#8 then .ok (.ldVxMem x)
  else .error .unknownClassF

/-- The decoder: a pure function of the 16 opcode bits (30_encoding.md R61, 40_tick_cycle.md R87), strict (R65). -/
def decodeWord (w : Word) : Except DecodeError Instr :=
  if fieldClass w = 0x0#4 then .ok (decodeClass0 w)
  else if fieldClass w = 0x1#4 then .ok (.jp (fieldNNN w))
  else if fieldClass w = 0x2#4 then .ok (.call (fieldNNN w))
  else if fieldClass w = 0x3#4 then .ok (.seImm (fieldX w) (fieldKK w))
  else if fieldClass w = 0x4#4 then .ok (.sneImm (fieldX w) (fieldKK w))
  else if fieldClass w = 0x5#4 then
    if fieldN w = 0x0#4 then .ok (.seReg (fieldX w) (fieldY w)) else .error .unknownClass5
  else if fieldClass w = 0x6#4 then .ok (.ldImm (fieldX w) (fieldKK w))
  else if fieldClass w = 0x7#4 then .ok (.addImm (fieldX w) (fieldKK w))
  else if fieldClass w = 0x8#4 then decodeClass8 w
  else if fieldClass w = 0x9#4 then
    if fieldN w = 0x0#4 then .ok (.sneReg (fieldX w) (fieldY w)) else .error .unknownClass9
  else if fieldClass w = 0xA#4 then .ok (.ldI (fieldNNN w))
  else if fieldClass w = 0xB#4 then .ok (.jpV0 (fieldNNN w))
  else if fieldClass w = 0xC#4 then .ok (.rnd (fieldX w) (fieldKK w))
  else if fieldClass w = 0xD#4 then .ok (.drw (fieldX w) (fieldY w) (fieldN w))
  else if fieldClass w = 0xE#4 then decodeClassE w
  else decodeClassF w

/-- The opcode of two bytes: the byte at the lower address is the more significant one (20_memory.md R43). -/
def wordOfBytes (hi lo : Byte) : Word := hi ++ lo

/-- The two bytes of an opcode, the one stored at the lower address first (30_encoding.md R70). -/
def bytesOfWord (w : Word) : List Byte := [w.extractLsb' 8 8, w.extractLsb' 0 8]

/-- Decoding of a byte sequence: the instruction of its first two bytes and the bytes that follow. -/
def decode : List Byte → Except DecodeError (Instr × List Byte)
  | hi :: lo :: rest => (decodeWord (wordOfBytes hi lo)).map fun i => (i, rest)
  | _ => .error .truncated

/-! ## Encoding -/

/-- Format A, `c nnn` (30_encoding.md R63). -/
def encodeA (c : Nibble) (nnn : Addr12) : Word := c ++ nnn
/-- Format XK, `c x kk` (30_encoding.md R63). -/
def encodeXK (c x : Nibble) (kk : Byte) : Word := c ++ x ++ kk
/-- Formats XY and XYN, `c x y s` and `c x y n` (30_encoding.md R63). -/
def encodeXY (c x y s : Nibble) : Word := c ++ x ++ y ++ s

/-- The word of an instruction (30_encoding.md R63, R64, R70). -/
def encode : Instr → Word
  | .sys nnn => encodeA 0x0#4 nnn
  | .cls => 0x00E0#16
  | .ret => 0x00EE#16
  | .jp nnn => encodeA 0x1#4 nnn
  | .call nnn => encodeA 0x2#4 nnn
  | .seImm x kk => encodeXK 0x3#4 x kk
  | .sneImm x kk => encodeXK 0x4#4 x kk
  | .seReg x y => encodeXY 0x5#4 x y 0x0#4
  | .ldImm x kk => encodeXK 0x6#4 x kk
  | .addImm x kk => encodeXK 0x7#4 x kk
  | .ldReg x y => encodeXY 0x8#4 x y 0x0#4
  | .orReg x y => encodeXY 0x8#4 x y 0x1#4
  | .andReg x y => encodeXY 0x8#4 x y 0x2#4
  | .xorReg x y => encodeXY 0x8#4 x y 0x3#4
  | .addReg x y => encodeXY 0x8#4 x y 0x4#4
  | .sub x y => encodeXY 0x8#4 x y 0x5#4
  | .shr x y => encodeXY 0x8#4 x y 0x6#4
  | .subn x y => encodeXY 0x8#4 x y 0x7#4
  | .shl x y => encodeXY 0x8#4 x y 0xE#4
  | .sneReg x y => encodeXY 0x9#4 x y 0x0#4
  | .ldI nnn => encodeA 0xA#4 nnn
  | .jpV0 nnn => encodeA 0xB#4 nnn
  | .rnd x kk => encodeXK 0xC#4 x kk
  | .drw x y n => encodeXY 0xD#4 x y n
  | .skp x => encodeXK 0xE#4 x 0x9E#8
  | .sknp x => encodeXK 0xE#4 x 0xA1#8
  | .ldVxDt x => encodeXK 0xF#4 x 0x07#8
  | .ldVxK x => encodeXK 0xF#4 x 0x0A#8
  | .ldDtVx x => encodeXK 0xF#4 x 0x15#8
  | .ldStVx x => encodeXK 0xF#4 x 0x18#8
  | .addI x => encodeXK 0xF#4 x 0x1E#8
  | .ldF x => encodeXK 0xF#4 x 0x29#8
  | .ldB x => encodeXK 0xF#4 x 0x33#8
  | .ldMemVx x => encodeXK 0xF#4 x 0x55#8
  | .ldVxMem x => encodeXK 0xF#4 x 0x65#8

/-- The two bytes of an instruction as memory holds them (30_encoding.md R70). -/
def encodeBytes (i : Instr) : List Byte := bytesOfWord (encode i)

/-! ## The opcode table (30_encoding.md R64) -/

/-- A row of the opcode table: an opcode `w` selects it when `w & mask = bits`. -/
structure OpRow where
  /-- The row's id in opcode_table.json. -/
  id : String
  /-- The mask of fixed bits. -/
  mask : Word
  /-- The value of the fixed bits, the table's "match". -/
  bits : Word
deriving DecidableEq, Repr

/-- The row of an instruction (30_encoding.md R64). -/
def Instr.row : Instr → OpRow
  | .sys _ => ⟨"sys", 0xF000#16, 0x0000#16⟩
  | .cls => ⟨"cls", 0xFFFF#16, 0x00E0#16⟩
  | .ret => ⟨"ret", 0xFFFF#16, 0x00EE#16⟩
  | .jp _ => ⟨"jp", 0xF000#16, 0x1000#16⟩
  | .call _ => ⟨"call", 0xF000#16, 0x2000#16⟩
  | .seImm _ _ => ⟨"se_imm", 0xF000#16, 0x3000#16⟩
  | .sneImm _ _ => ⟨"sne_imm", 0xF000#16, 0x4000#16⟩
  | .seReg _ _ => ⟨"se_reg", 0xF00F#16, 0x5000#16⟩
  | .ldImm _ _ => ⟨"ld_imm", 0xF000#16, 0x6000#16⟩
  | .addImm _ _ => ⟨"add_imm", 0xF000#16, 0x7000#16⟩
  | .ldReg _ _ => ⟨"ld_reg", 0xF00F#16, 0x8000#16⟩
  | .orReg _ _ => ⟨"or", 0xF00F#16, 0x8001#16⟩
  | .andReg _ _ => ⟨"and", 0xF00F#16, 0x8002#16⟩
  | .xorReg _ _ => ⟨"xor", 0xF00F#16, 0x8003#16⟩
  | .addReg _ _ => ⟨"add_reg", 0xF00F#16, 0x8004#16⟩
  | .sub _ _ => ⟨"sub", 0xF00F#16, 0x8005#16⟩
  | .shr _ _ => ⟨"shr", 0xF00F#16, 0x8006#16⟩
  | .subn _ _ => ⟨"subn", 0xF00F#16, 0x8007#16⟩
  | .shl _ _ => ⟨"shl", 0xF00F#16, 0x800E#16⟩
  | .sneReg _ _ => ⟨"sne_reg", 0xF00F#16, 0x9000#16⟩
  | .ldI _ => ⟨"ld_i", 0xF000#16, 0xA000#16⟩
  | .jpV0 _ => ⟨"jp_v0", 0xF000#16, 0xB000#16⟩
  | .rnd _ _ => ⟨"rnd", 0xF000#16, 0xC000#16⟩
  | .drw _ _ _ => ⟨"drw", 0xF000#16, 0xD000#16⟩
  | .skp _ => ⟨"skp", 0xF0FF#16, 0xE09E#16⟩
  | .sknp _ => ⟨"sknp", 0xF0FF#16, 0xE0A1#16⟩
  | .ldVxDt _ => ⟨"ld_vx_dt", 0xF0FF#16, 0xF007#16⟩
  | .ldVxK _ => ⟨"ld_vx_k", 0xF0FF#16, 0xF00A#16⟩
  | .ldDtVx _ => ⟨"ld_dt_vx", 0xF0FF#16, 0xF015#16⟩
  | .ldStVx _ => ⟨"ld_st_vx", 0xF0FF#16, 0xF018#16⟩
  | .addI _ => ⟨"add_i", 0xF0FF#16, 0xF01E#16⟩
  | .ldF _ => ⟨"ld_f", 0xF0FF#16, 0xF029#16⟩
  | .ldB _ => ⟨"ld_b", 0xF0FF#16, 0xF033#16⟩
  | .ldMemVx _ => ⟨"ld_mem_vx", 0xF0FF#16, 0xF055#16⟩
  | .ldVxMem _ => ⟨"ld_vx_mem", 0xF0FF#16, 0xF065#16⟩

/-- One instruction of each row, in the table's order. -/
def rowSamples : List Instr :=
  [.sys 0, .cls, .ret, .jp 0, .call 0, .seImm 0 0, .sneImm 0 0, .seReg 0 0, .ldImm 0 0, .addImm 0 0]
  ++ [.ldReg 0 0, .orReg 0 0, .andReg 0 0, .xorReg 0 0, .addReg 0 0, .sub 0 0, .shr 0 0, .subn 0 0, .shl 0 0]
  ++ [.sneReg 0 0, .ldI 0, .jpV0 0, .rnd 0 0, .drw 0 0 0, .skp 0, .sknp 0]
  ++ [.ldVxDt 0, .ldVxK 0, .ldDtVx 0, .ldStVx 0, .addI 0, .ldF 0, .ldB 0, .ldMemVx 0, .ldVxMem 0]

/-- The opcode table: the 35 rows of 30_encoding.md R64, in its order. -/
def opcodeTable : List OpRow := rowSamples.map Instr.row

/-! ## The host's question -/

/-- The instruction the decoder reads from the word `w` given in `nbits` bits, the bits above them zero (log entry
10): the word is laid out in memory order and decoded. -/
def decodeTableWord (nbits w : Nat) : Option Instr :=
  match decode (bytesOfWord (BitVec.ofNat 16 (w % 2 ^ nbits))) with
  | .ok (i, _) => some i
  | .error _ => none

end Sys2Proof
end

