-- ==== Sys2Proof/Config.lean ====
section
/-!
DEFINITION. The configuration of the machine (00_scope.md R6: FONT_BASE, GLYPHS, VF_WRITE_ORDER), fixed for a run,
and the free values of the step's two inputs (10_state.md R27(a), R27(b)).
-/

namespace Sys2Proof

/-- FONT_BASE: the two candidate glyph bases, and no other (20_memory.md R48; 90_conflicts.md C1). -/
inductive FontBase where
  /-- The table at 0x050, the spec's default. -/
  | at050
  /-- The table at 0x000, the one alternative. -/
  | at000
deriving DecidableEq, Repr

/-- VF_WRITE_ORDER: which of result and flag is written last (42_alu.md R121). -/
inductive VfWriteOrder where
  /-- Operands latched, result written, flag written last: the spec's default. -/
  | flagLast
  /-- Flag written first, operands read again, result written. -/
  | flagFirst
deriving DecidableEq, Repr

/-- The configuration a claim may name or quantify over (00_scope.md R6). No step changes it. -/
structure Config where
  /-- FONT_BASE. -/
  fontBase : FontBase
  /-- GLYPHS: the 80 glyph bytes, digit `d` at index `5 * d` (20_memory.md R47). -/
  glyphs : Vector Byte 80
  /-- VF_WRITE_ORDER. -/
  vfWriteOrder : VfWriteOrder
deriving DecidableEq, Repr

/-- FREE VALUE (log entry 1): the keypad argument of a tick for which the state lines none up. The host may
present any pattern (60_exceptions.md R193), so nothing constrains it. -/
opaque Config.freeKeys : Nat → Keys

/-- FREE VALUE (log entry 2): the random byte of an RND for which the state lines none up. The spec gives no law
connecting the bytes (92_eei_decisions.md D23), so nothing constrains it. -/
opaque Config.freeRnd : Nat → Byte

end Sys2Proof
end

