-- ==== Sys2Proof/Machine/Defaults.lean ====
section
/-!
DEFINITION. The values of the configuration the spec gives: the address of each glyph base (20_memory.md R48), the
customary glyph bytes (20_memory.md R47) and the default configuration (00_scope.md R6).
-/

namespace Sys2Proof.Machine

/-- The address of a glyph base (20_memory.md R48). -/
def fontAddr : FontBase → Word
  | .at050 => 0x050#16
  | .at000 => 0x000#16

/-- The customary glyphs, digit `d` at `5 * d`, top row first (20_memory.md R47). -/
def defaultGlyphs : Vector Byte 80 := #v[
  0xF0, 0x90, 0x90, 0x90, 0xF0,  0x20, 0x60, 0x20, 0x20, 0x70,
  0xF0, 0x10, 0xF0, 0x80, 0xF0,  0xF0, 0x10, 0xF0, 0x10, 0xF0,
  0x90, 0x90, 0xF0, 0x10, 0x10,  0xF0, 0x80, 0xF0, 0x10, 0xF0,
  0xF0, 0x80, 0xF0, 0x90, 0xF0,  0xF0, 0x10, 0x20, 0x40, 0x40,
  0xF0, 0x90, 0xF0, 0x90, 0xF0,  0xF0, 0x90, 0xF0, 0x10, 0xF0,
  0xF0, 0x90, 0xF0, 0x90, 0x90,  0xE0, 0x90, 0xE0, 0x90, 0xE0,
  0xF0, 0x80, 0x80, 0x80, 0xF0,  0xE0, 0x90, 0x90, 0x90, 0xE0,
  0xF0, 0x80, 0xF0, 0x80, 0xF0,  0xF0, 0x80, 0xF0, 0x80, 0x80]

/-- The default of every configuration parameter (00_scope.md R6; log entries 3 and 4). -/
def defaultConfig : Config :=
  { fontBase := .at050, glyphs := defaultGlyphs, vfWriteOrder := .flagLast }

/-- The first address above the memory: addresses run from 0x000 to 0xFFF (20_memory.md R40). -/
def memSize : Nat := 4096

/-- Where load writes the image and points `PC` (00_scope.md R5, LOAD_BASE). -/
def loadBase : Word := 0x200#16

/-- The longest image load accepts (00_scope.md R5, MAX_IMAGE). -/
def maxImage : Nat := 3584

end Sys2Proof.Machine
end

