-- ==== Sys2Proof/Machine/State.lean ====
section
/-!
DEFINITION. The architectural state (10_state.md R10), the fault record (60_exceptions.md R170), the reasons a run
can meet, and the state after reset (10_state.md R28). Beside the spec's tuple, State holds the configuration and the
two inputs of a step, which 10_state.md R27 makes parameters of the step: the host interface hands `step` a State only.
-/

namespace Sys2Proof.Machine

/-- The spec's faults, each with the information `raise X(info)` gives (60_exceptions.md R171). The spec describes the
whole effect of each: the FAULT record is written and the tick ends (R172, R173). So `State.raise` takes them into a
NEXT state, and no meaning and no step ever ends in `Outcome.fault` with one (log entry 6). All are safe. -/
inductive Fault where
  /-- Raised by the tick on an unknown opcode and by SYS; not fatal; `info` is the opcode. Safe: recorded (R172). -/
  | decodeFailure (opcode : Word)
  /-- Raised by CALL when `SP = 15`; `info` is the CALL's target. Safe: recorded, and the machine halts (R173). -/
  | stackOverflow (target : Word)
  /-- Raised by RET when `SP = 0`; `info` is 0. Safe: recorded, and the machine halts (R173). -/
  | stackUnderflow
  /-- Raised by the fetch, DRW, LD B, LD [I],Vx and LD Vx,[I] when an address above 0xFFF would be accessed; `info` is
  the lowest offending address. Safe: recorded, and the machine halts (R173). -/
  | memRange (addr : Word)
  /-- Raised by SKP and SKNP when `V[x] > 15`; `info` is `V[x]`. Safe: recorded, and the machine halts (R173). -/
  | keyIndexRange (v : Byte)
  /-- Raised by LD F when `V[x] > 15`; `info` is `V[x]`. Safe: recorded, and the machine halts (R173). -/
  | glyphIndexRange (v : Byte)
deriving DecidableEq, Repr

/-- Why an operation has no meaning. -/
inductive Refusal where
  /-- Raised by an arm of `exec` whose instruction has no meaning yet. No arm does. Safe: nothing is claimed. -/
  | notModelled (mnemonic : String)
  /-- Raised by the host's load of an image longer than 3584 bytes, which the spec refuses with no state change
  (60_exceptions.md R188; 90_conflicts.md C2). Safe: no successor state. No instruction raises it. -/
  | imageTooLong
deriving DecidableEq, Repr

/-- The cause field of the fault record (60_exceptions.md R171). -/
inductive Cause where
  /-- Code 0. -/
  | noFault
  /-- Code 1. -/
  | decodeFailure
  /-- Code 2. -/
  | stackOverflow
  /-- Code 3. -/
  | stackUnderflow
  /-- Code 4. -/
  | memRange
  /-- Code 5. -/
  | keyIndexRange
  /-- Code 6. -/
  | glyphIndexRange
deriving DecidableEq, Repr

/-- The fault record FAULT (60_exceptions.md R170). -/
structure FaultRecord where
  /-- The cause; `noFault` means none so far. -/
  cause : Cause
  /-- The information of the cause, 16 bits. -/
  info : Word
  /-- The value of `PC` when the fault was raised. -/
  pc : Word
deriving DecidableEq, Repr

/-- The wait state WAIT (10_state.md R22). -/
inductive Wait where
  /-- Instructions are fetched and executed. -/
  | running
  /-- A key-down is awaited; its index goes to register `r`. -/
  | waitingForKey (r : Nibble)
deriving DecidableEq, Repr

/-- The framebuffer: row `py` is word `py`, pixel `(px, py)` its bit `px` (10_state.md R23; log entry 12). -/
abbrev FrameBuffer := Vector (BitVec 64) 32

/-- The memory: the cells whose byte differs from the reset contents, addresses strictly rising (log entry 8). -/
abbrev Memory := List Host.Cell

/-- The machine's state (10_state.md R10), the configuration (00_scope.md R6) and the step's inputs (10_state.md R27). -/
structure State where
  /-- `V[0..15]` (10_state.md R11). -/
  v : Vector Byte 16
  /-- `I` (10_state.md R16). -/
  i : Word
  /-- `PC` (10_state.md R14). -/
  pc : Word
  /-- `SP`, the number of return addresses on the stack (10_state.md R17). -/
  sp : Nibble
  /-- `STACK[0..15]` (10_state.md R18). -/
  stack : Vector Word 16
  /-- `DT` (10_state.md R19). -/
  dt : Byte
  /-- `ST` (10_state.md R20). -/
  st : Byte
  /-- `KEYS[0..15]` (10_state.md R21). -/
  keys : Keys
  /-- `WAIT` (10_state.md R22). -/
  wait : Wait
  /-- `FB[0..63][0..31]` (10_state.md R23). -/
  fb : FrameBuffer
  /-- `REDRAW` (10_state.md R24). -/
  redraw : Bool
  /-- `MEM[0x000..0xFFF]` (10_state.md R26). -/
  mem : Memory
  /-- `FAULT` (60_exceptions.md R170). -/
  fault : FaultRecord
  /-- The configuration (00_scope.md R6). The model's field. -/
  cfg : Config
  /-- The keypad arguments lined up for the coming ticks (10_state.md R27(a); log entry 1). The model's field. -/
  keyArgs : List Keys
  /-- How many keypad arguments were taken (log entry 1). The model's field. -/
  keyArgsTaken : Nat
  /-- The random bytes lined up for the coming RNDs (10_state.md R27(b); log entry 2). The model's field. -/
  rndBytes : List Byte
  /-- How many random bytes were taken (log entry 2). The model's field. -/
  rndTaken : Nat
deriving DecidableEq, Repr

/-- The state after reset under a configuration (10_state.md R28, 70_reset_and_hazards.md R200). The glyph bytes are
the reset contents of memory, so no cell is listed. -/
def State.resetWith (cfg : Config) : State where
  v := Vector.replicate 16 0
  i := 0
  pc := 0
  sp := 0
  stack := Vector.replicate 16 0
  dt := 0
  st := 0
  keys := 0
  wait := .running
  fb := Vector.replicate 32 0
  redraw := false
  mem := []
  fault := { cause := .noFault, info := 0, pc := 0 }
  cfg := cfg
  keyArgs := []
  keyArgsTaken := 0
  rndBytes := []
  rndTaken := 0

/-- The machine right after reset, under the default configuration (10_state.md R28, 00_scope.md R6). -/
def State.reset : State := State.resetWith defaultConfig

end Sys2Proof.Machine
end

