-- ==== Sys2Proof/Machine/Ops.lean ====
section
/-!
DEFINITION. The named operations over registers, memory, stack, fault record and inputs; raising a fault; the PC
effect; how an instruction completes; the host's operations and what it reads.
-/

namespace Sys2Proof.Machine

/-! ## General registers (10_state.md R11, R13) -/

/-- `V[r]`. -/
def State.readV (s : State) (r : Nibble) : Byte := s.v[r.toNat]

/-- `V[r] <- b`. -/
def State.writeV (s : State) (r : Nibble) (b : Byte) : State := { s with v := s.v.set r.toNat b }

/-- The index of the flag register `VF` (10_state.md R12). -/
def flagReg : Nibble := 15#4

/-! ## Memory (20_memory.md R40 to R43) -/

/-- The byte a cell holds at reset (10_state.md R28, 20_memory.md R46): the glyph table at FONT_BASE, else 0. It is
what an unlisted address reads as (log entry 8). -/
def resetByte (cfg : Config) (a : Nat) : Byte :=
  if h : (fontAddr cfg.fontBase).toNat ≤ a ∧ a < (fontAddr cfg.fontBase).toNat + 80 then
    cfg.glyphs[a - (fontAddr cfg.fontBase).toNat]'(by omega)
  else 0

/-- The byte listed for an address, if any. -/
def Memory.lookup : Memory → Nat → Option Byte
  | [], _ => none
  | (k, b) :: m, a => if k = a then some b else Memory.lookup m a

/-- The byte at an address: the listed one, else the reset contents. -/
def Memory.get (cfg : Config) (m : Memory) (a : Nat) : Byte := (Memory.lookup m a).getD (resetByte cfg a)

/-- List a byte for an address, keeping the addresses rising. -/
def Memory.insert (a : Nat) (b : Byte) : Memory → Memory
  | [] => [(a, b)]
  | (k, c) :: m =>
    if k < a then (k, c) :: Memory.insert a b m
    else if k = a then (a, b) :: m
    else (a, b) :: (k, c) :: m

/-- List no byte for an address. -/
def Memory.erase (a : Nat) (m : Memory) : Memory := m.filter fun c => c.1 != a

/-- Write a byte, keeping the canonical form: writing the reset contents removes the entry (log entry 8). -/
def Memory.set (cfg : Config) (m : Memory) (a : Nat) (b : Byte) : Memory :=
  if b = resetByte cfg a then Memory.erase a m else Memory.insert a b m

/-- Addresses strictly rise. -/
def Memory.rising (m : Memory) : Bool := decide (m.Pairwise fun c d => c.1 < d.1)

/-- The canonical form: addresses strictly rising, each below 4096, no entry equal to the reset contents. -/
def Memory.wf (cfg : Config) (m : Memory) : Bool :=
  Memory.rising m && m.all fun c => decide (c.1 < memSize) && c.2 != resetByte cfg c.1

/-- `MEM[a]` for an address below 4096; every access checks that first (log entry 8). -/
def State.readByte (s : State) (a : Nat) : Byte := Memory.get s.cfg s.mem a

/-- `MEM[a] <- b` for an address below 4096; every access checks that first. -/
def State.writeByte (s : State) (a : Nat) (b : Byte) : State := { s with mem := Memory.set s.cfg s.mem a b }

/-- The bytes of a list written at ascending addresses. -/
def State.writeBytes (s : State) (a : Nat) : List Byte → State
  | [] => s
  | b :: bs => (s.writeByte a b).writeBytes (a + 1) bs

/-- The range check of an access of `len` bytes from `addr`, made before its first read or write, over the integers:
the fault names the lowest address above 0xFFF. No byte accessed, no fault (43_index_memory.md R146, 20_memory.md
R41 to R43, 44_display.md R152). -/
def rangeFault (addr : Word) (len : Nat) : Option Fault :=
  if len ≠ 0 ∧ addr.toNat + (len - 1) > 0xFFF then
    some (.memRange (if addr.toNat > 0xFFF then addr else 0x1000#16))
  else none

/-- `MemRead` of `len` bytes at ascending addresses (20_memory.md R41, R43, R45). -/
def State.memRead (s : State) (addr : Word) (len : Nat) : Except Fault (List Byte) :=
  match rangeFault addr len with
  | some f => .error f
  | none => .ok ((List.range len).map fun k => s.readByte (addr.toNat + k))

/-- `MemWrite` of the bytes of a list at ascending addresses (20_memory.md R42, R45). -/
def State.memWrite (s : State) (addr : Word) (bs : List Byte) : Except Fault State :=
  match rangeFault addr bs.length with
  | some f => .error f
  | none => .ok (s.writeBytes addr.toNat bs)

/-! ## Call stack (41_control_flow.md R100) -/

/-- Push of `a` by a CALL to `target`: StackOverflow when `SP = 15`, checked before any write. -/
def State.push (s : State) (a target : Word) : Except Fault State :=
  if s.sp = 15#4 then .error (.stackOverflow target)
  else .ok { s with stack := s.stack.set s.sp.toNat a, sp := s.sp + 1#4 }

/-- Pop: StackUnderflow when `SP = 0`; the slot keeps its value (10_state.md R18). -/
def State.pop (s : State) : Except Fault (Word × State) :=
  if s.sp = 0#4 then .error .stackUnderflow
  else .ok (s.stack[(s.sp - 1#4).toNat], { s with sp := s.sp - 1#4 })

/-! ## Faults (60_exceptions.md R170 to R174) -/

/-- The numeric code of a cause (60_exceptions.md R171). -/
def Cause.code : Cause → Nat
  | .noFault => 0
  | .decodeFailure => 1
  | .stackOverflow => 2
  | .stackUnderflow => 3
  | .memRange => 4
  | .keyIndexRange => 5
  | .glyphIndexRange => 6

/-- Whether a cause is fatal: codes 2 to 6 (60_exceptions.md R171, R173). -/
def Cause.fatal : Cause → Bool
  | .noFault | .decodeFailure => false
  | .stackOverflow | .stackUnderflow | .memRange | .keyIndexRange | .glyphIndexRange => true

/-- The cause a fault records (60_exceptions.md R171). -/
def Fault.cause : Fault → Cause
  | .decodeFailure _ => .decodeFailure
  | .stackOverflow _ => .stackOverflow
  | .stackUnderflow => .stackUnderflow
  | .memRange _ => .memRange
  | .keyIndexRange _ => .keyIndexRange
  | .glyphIndexRange _ => .glyphIndexRange

/-- The `info` a fault records (60_exceptions.md R171). -/
def Fault.info : Fault → Word
  | .decodeFailure w => w
  | .stackOverflow t => t
  | .stackUnderflow => 0
  | .memRange a => a
  | .keyIndexRange b => b.setWidth 16
  | .glyphIndexRange b => b.setWidth 16

/-- TAKING A FAULT: the record is written if it was none, with the `PC` of the instruction being fetched or executed,
and nothing else changes (60_exceptions.md R170, R172 to R174, R176; log entry 7). There is no trap entry and no
return from one (R176, R177): the only way back is `State.hostReset`. -/
def State.raise (s : State) (f : Fault) : State :=
  if s.fault.cause = .noFault then { s with fault := { cause := f.cause, info := f.info, pc := s.pc } } else s

/-- The machine is halted: a fatal cause is latched (40_tick_cycle.md R90). -/
def State.halted (s : State) : Bool := s.fault.cause.fatal

/-! ## The PC effect and completion (40_tick_cycle.md R88, R90) -/

/-- The declarative program-counter effect a handler returns (40_tick_cycle.md R88). -/
inductive PcEffect where
  /-- Advance by one instruction width. -/
  | next
  /-- Advance by two instruction widths. -/
  | skip
  /-- Set `PC` to an explicit address. -/
  | jump (a : Word)
deriving DecidableEq, Repr

/-- Next or Skip by a condition (the six skips, 40_tick_cycle.md R88). -/
def PcEffect.skipIf (c : Bool) : PcEffect := if c then .skip else .next

/-- `PC` after an effect: the addition is 16-bit (10_state.md R15). -/
def PcEffect.target (pc : Word) : PcEffect → Word
  | .next => pc + 2#16
  | .skip => pc + 4#16
  | .jump a => a

/-- Phase P8: the effect is applied after every other write (40_tick_cycle.md R88). -/
def State.applyPc (s : State) (e : PcEffect) : State := { s with pc := e.target s.pc }

/-- What a handler answers: the state with the instruction's writes and its PC effect, or the fault it raises. -/
abbrev Handled := Except Fault (State × PcEffect)

/-- Phases P7 and P8: a handler that raises a fault changes nothing but the fault record (40_tick_cycle.md R90,
60_exceptions.md R174); one that does not has its writes kept and its PC effect applied. -/
def State.complete (s : State) : Handled → Host.Outcome State Fault Refusal
  | .error f => .next (s.raise f)
  | .ok (t, e) => .next (t.applyPc e)

/-! ## Inputs (10_state.md R27) -/

/-- The keypad argument of the coming tick: the one lined up, else a free value (log entry 1). -/
def State.nextKeys (s : State) : Keys := s.keyArgs.head?.getD (Config.freeKeys s.keyArgsTaken)

/-- The random byte of the coming RND: the one lined up, else a free value (log entry 2). -/
def State.nextRnd (s : State) : Byte := s.rndBytes.head?.getD (Config.freeRnd s.rndTaken)

/-- The random byte is taken: the next RND gets another. -/
def State.takeRnd (s : State) : State := { s with rndBytes := s.rndBytes.tail, rndTaken := s.rndTaken + 1 }

/-! ## Phases of the tick before execution (40_tick_cycle.md R81) -/

/-- Phases P1 and P2: the redraw flag is cleared and the keypad snapshot replaced (R82, R83); the argument is taken. -/
def State.latch (s : State) (keys : Keys) : State :=
  { s with redraw := false, keys := keys, keyArgs := s.keyArgs.tail, keyArgsTaken := s.keyArgsTaken + 1 }

/-- The lowest-indexed key that is down (R84). -/
def lowestKey (keys : Keys) : Option Nat := (List.range 16).find? fun k => keys.getLsbD k

/-- Phase P3 in `WaitingForKey(r)`: the lowest key down is latched into `V[r]` and the wait ends; with no key down
nothing changes (R84). -/
def State.resolveWait (s : State) (r : Nibble) : State :=
  match lowestKey s.keys with
  | some k => { s.writeV r (BitVec.ofNat 8 k) with wait := .running }
  | none => s

/-- A countdown timer: one less, and a timer at zero stays zero (R85). -/
def countDown (t : Byte) : Byte := if t = 0 then 0 else t - 1

/-- Phase P4: both timers count down (R85). -/
def State.countTimers (s : State) : State := { s with dt := countDown s.dt, st := countDown s.st }

/-- Phase P5: the two bytes at `PC` (R86, 20_memory.md R43). -/
def State.fetch (s : State) : Except Fault (List Byte) := s.memRead s.pc 2

/-- The opcode of fetched bytes, big-endian (20_memory.md R43). -/
def opcodeOf (bs : List Byte) : Word := wordOfBytes (bs.getD 0 0) (bs.getD 1 0)

/-! ## The host's operations (60_exceptions.md R186 to R188) -/

/-- Reset in any state (R187): every piece of state at its reset value. The configuration and what the host and the
environment have lined up are no state of the core and stay (log entry 11). -/
def State.hostReset (s : State) : State :=
  { State.resetWith s.cfg with
    keyArgs := s.keyArgs, keyArgsTaken := s.keyArgsTaken, rndBytes := s.rndBytes, rndTaken := s.rndTaken }

/-- Load (R188, 70_reset_and_hazards.md R202): the image at 0x200 upward, then `PC <- 0x200`, nothing else; an image
longer than 3584 bytes is refused (log entry 9). -/
def State.load (s : State) (image : List Byte) : Host.Outcome State Fault Refusal :=
  if image.length ≤ maxImage then .next { s.writeBytes loadBase.toNat image with pc := loadBase }
  else .refused .imageTooLong

/-- The launch state of an image: reset, then one load (70_reset_and_hazards.md R204). -/
def State.launch (cfg : Config) (image : List Byte) : Host.Outcome State Fault Refusal :=
  (State.resetWith cfg).load image

/-! ## What the host reads between ticks (60_exceptions.md R190 to R194) -/

/-- The pixel at column `px`, row `py` (R190, 10_state.md R23). -/
def FrameBuffer.pixel (fb : FrameBuffer) (px : Fin 64) (py : Fin 32) : Bool := fb[py].getLsbD px

/-- The output `fb(x, y)` (R190). -/
def State.fbOut (s : State) (px : Fin 64) (py : Fin 32) : Bool := FrameBuffer.pixel s.fb px py

/-- The output `tone`: on when the sound timer is not zero (R191). -/
def State.toneOut (s : State) : Bool := s.st != 0

/-- The output `st` (R191). -/
def State.stOut (s : State) : Byte := s.st

/-- The output `redraw` (R192). -/
def State.redrawOut (s : State) : Bool := s.redraw

/-- The output `fault` (R194). -/
def State.faultOut (s : State) : FaultRecord := s.fault

/-! ## Placing an instruction where the next step fetches (log entry 10) -/

/-- The state with what the very next fetch needs: not halted, not waiting, and `PC` where two bytes can be fetched. -/
def State.readyToFetch (s : State) : State :=
  { s with
    wait := .running
    fault := if s.halted then { cause := .noFault, info := 0, pc := 0 } else s.fault
    pc := if s.pc.toNat ≤ 0xFFE then s.pc else loadBase }

/-- The state with an opcode stored where its next step fetches. -/
def State.placeOpcode (s : State) (w : Word) : State :=
  s.readyToFetch.writeBytes s.readyToFetch.pc.toNat (bytesOfWord w)

end Sys2Proof.Machine
end

