-- ==== Sys2Proof/Machine/Operands.lean ====
section
/-!
DEFINITION. The operand forms of the instructions (30_encoding.md R62; 43_index_memory.md R146; the operand lines of
the instruction rules).
-/

namespace Sys2Proof.Machine

/-- The address operand `nnn`, zero-extended to 16 bits (30_encoding.md R62). -/
def zextAddr (nnn : Addr12) : Word := nnn.setWidth 16

/-- A byte zero-extended to 16 bits (00_scope.md R7). -/
def zextByte (b : Byte) : Word := b.setWidth 16

/-- The key index `V[x]` of SKP and SKNP: KeyIndexRange above 15 (45_keypad_timers.md R160, R161). -/
def State.keyOperand (s : State) (x : Nibble) : Except Fault Nat :=
  if (s.readV x).toNat > 15 then .error (.keyIndexRange (s.readV x)) else .ok (s.readV x).toNat

/-- The digit `V[x]` of LD F: GlyphIndexRange above 15 (43_index_memory.md R142). -/
def State.digitOperand (s : State) (x : Nibble) : Except Fault Nat :=
  if (s.readV x).toNat > 15 then .error (.glyphIndexRange (s.readV x)) else .ok (s.readV x).toNat

/-- The address of a digit's glyph, `FONT_BASE + 5 * d` (43_index_memory.md R142, 20_memory.md R47). -/
def glyphAddr (cfg : Config) (d : Nat) : Word := fontAddr cfg.fontBase + BitVec.ofNat 16 (5 * d)

/-- The registers `V[0]` to `V[x]`, ascending (43_index_memory.md R144). -/
def State.regBlock (s : State) (x : Nibble) : List Byte :=
  (List.range (x.toNat + 1)).map fun k => s.readV (BitVec.ofNat 4 k)

/-- `V[k] <- b` for the bytes of a list, from register `k` ascending (43_index_memory.md R145). -/
def State.writeRegs (s : State) (k : Nat) : List Byte → State
  | [] => s
  | b :: bs => (s.writeV (BitVec.ofNat 4 k) b).writeRegs (k + 1) bs

/-- The three decimal digits of a byte, hundreds first (43_index_memory.md R143). -/
def bcdDigits (b : Byte) : List Byte :=
  [BitVec.ofNat 8 (b.toNat / 100), BitVec.ofNat 8 (b.toNat / 10 % 10), BitVec.ofNat 8 (b.toNat % 10)]

end Sys2Proof.Machine
end

