-- ==== Sys2Proof/Machine/Flags.lean ====
section
/-!
DEFINITION. The flag computations (42_alu.md R120, R128 to R132): each is a function of the operand values before the
instruction and gives 0x00 or 0x01 (10_state.md R25). The order in which result and flag are written is the parameter
VF_WRITE_ORDER (42_alu.md R121).
-/

namespace Sys2Proof.Machine

/-- A flag value as a byte, 0x00 or 0x01 (10_state.md R25). -/
def flagByte (c : Bool) : Byte := if c then 1 else 0

/-- The carry of an addition: the untruncated sum exceeds 255 (42_alu.md R128). -/
def carryFlag (a b : Byte) : Byte := flagByte (decide (a.toNat + b.toNat > 255))

/-- Strictly greater, the flag of SUB and, with the operands exchanged, of SUBN (42_alu.md R129, R131). -/
def greaterFlag (a b : Byte) : Byte := flagByte (decide (a.toNat > b.toNat))

/-- The bit a right shift shifts out (42_alu.md R130). -/
def lowBitFlag (a : Byte) : Byte := flagByte (a.getLsbD 0)

/-- The bit a left shift shifts out (42_alu.md R132). -/
def highBitFlag (a : Byte) : Byte := flagByte (a.getLsbD 7)

/-- The result and flag writes of a flag-writing ALU instruction with operands `V[x]` and `V[y]`, in the configured
order (42_alu.md R121): flag last from latched operands, or flag first with the operands read again. -/
def State.writeResultAndFlag (s : State) (x y : Nibble) (result flag : Byte → Byte → Byte) : State :=
  match s.cfg.vfWriteOrder with
  | .flagLast =>
    (s.writeV x (result (s.readV x) (s.readV y))).writeV flagReg (flag (s.readV x) (s.readV y))
  | .flagFirst =>
    let t := s.writeV flagReg (flag (s.readV x) (s.readV y))
    t.writeV x (result (t.readV x) (t.readV y))

end Sys2Proof.Machine
end

