-- ==== Sys2Proof/Machine/Alu.lean ====
section
/-!
DEFINITION. Register load, arithmetic, logic, shift and random (42_alu.md). All return Next, raise nothing and touch no
memory; arithmetic is modulo 256 on unsigned bytes (R120).
-/

namespace Sys2Proof.Machine

/-- LD Vx, kk (42_alu.md R122). -/
def execLdImm (x : Nibble) (kk : Byte) (s : State) : Host.Outcome State Fault Refusal :=
  s.complete (.ok (s.writeV x kk, .next))

/-- ADD Vx, kk: no flag (42_alu.md R123). -/
def execAddImm (x : Nibble) (kk : Byte) (s : State) : Host.Outcome State Fault Refusal :=
  s.complete (.ok (s.writeV x (s.readV x + kk), .next))

/-- LD Vx, Vy (42_alu.md R124). -/
def execLdReg (x y : Nibble) (s : State) : Host.Outcome State Fault Refusal :=
  s.complete (.ok (s.writeV x (s.readV y), .next))

/-- OR Vx, Vy: VF unchanged (42_alu.md R125). -/
def execOrReg (x y : Nibble) (s : State) : Host.Outcome State Fault Refusal :=
  s.complete (.ok (s.writeV x (s.readV x ||| s.readV y), .next))

/-- AND Vx, Vy: VF unchanged (42_alu.md R126). -/
def execAndReg (x y : Nibble) (s : State) : Host.Outcome State Fault Refusal :=
  s.complete (.ok (s.writeV x (s.readV x &&& s.readV y), .next))

/-- XOR Vx, Vy: VF unchanged (42_alu.md R127). -/
def execXorReg (x y : Nibble) (s : State) : Host.Outcome State Fault Refusal :=
  s.complete (.ok (s.writeV x (s.readV x ^^^ s.readV y), .next))

/-- ADD Vx, Vy with carry (42_alu.md R128). -/
def execAddReg (x y : Nibble) (s : State) : Host.Outcome State Fault Refusal :=
  s.complete (.ok (s.writeResultAndFlag x y (fun a b => a + b) carryFlag, .next))

/-- SUB Vx, Vy: the flag is strict greater-than (42_alu.md R129). -/
def execSub (x y : Nibble) (s : State) : Host.Outcome State Fault Refusal :=
  s.complete (.ok (s.writeResultAndFlag x y (fun a b => a - b) greaterFlag, .next))

/-- SHR Vx: `V[y]` is neither read nor written (42_alu.md R130). -/
def execShr (x _y : Nibble) (s : State) : Host.Outcome State Fault Refusal :=
  s.complete (.ok (s.writeResultAndFlag x x (fun a _ => a >>> 1) (fun a _ => lowBitFlag a), .next))

/-- SUBN Vx, Vy: the operands exchanged (42_alu.md R131). -/
def execSubn (x y : Nibble) (s : State) : Host.Outcome State Fault Refusal :=
  s.complete (.ok (s.writeResultAndFlag x y (fun a b => b - a) (fun a b => greaterFlag b a), .next))

/-- SHL Vx: `V[y]` is neither read nor written (42_alu.md R132). -/
def execShl (x _y : Nibble) (s : State) : Host.Outcome State Fault Refusal :=
  s.complete (.ok (s.writeResultAndFlag x x (fun a _ => a <<< 1) (fun a _ => highBitFlag a), .next))

/-- RND Vx, kk: the environment's byte masked, VF unaffected (42_alu.md R133). -/
def execRnd (x : Nibble) (kk : Byte) (s : State) : Host.Outcome State Fault Refusal :=
  s.complete (.ok (s.takeRnd.writeV x (s.nextRnd &&& kk), .next))

end Sys2Proof.Machine
end

