-- ==== Sys2Proof/Machine/ControlFlow.lean ====
section
/-!
DEFINITION. Control transfer (41_control_flow.md): SYS, RET, JP, CALL, the four compare-and-skips, JP V0. None reads or
writes VF as a flag. During an instruction `PC` is the address it was fetched from (10_state.md R14).
-/

namespace Sys2Proof.Machine

/-- SYS nnn: treated exactly as an unknown opcode (41_control_flow.md R101, 30_encoding.md R67). -/
def execSys (nnn : Addr12) (s : State) : Host.Outcome State Fault Refusal :=
  s.complete (.error (.decodeFailure (encode (.sys nnn))))

/-- RET: resumes at the popped address plus the instruction width (41_control_flow.md R102). -/
def execRet (s : State) : Host.Outcome State Fault Refusal :=
  s.complete (s.pop.map fun p => (p.2, .jump (p.1 + 2#16)))

/-- JP nnn (41_control_flow.md R103). -/
def execJp (nnn : Addr12) (s : State) : Host.Outcome State Fault Refusal :=
  s.complete (.ok (s, .jump (zextAddr nnn)))

/-- CALL nnn: pushes the address of the CALL itself (41_control_flow.md R104). -/
def execCall (nnn : Addr12) (s : State) : Host.Outcome State Fault Refusal :=
  s.complete ((s.push s.pc (zextAddr nnn)).map fun t => (t, .jump (zextAddr nnn)))

/-- SE Vx, kk (41_control_flow.md R105). -/
def execSeImm (x : Nibble) (kk : Byte) (s : State) : Host.Outcome State Fault Refusal :=
  s.complete (.ok (s, .skipIf (s.readV x == kk)))

/-- SNE Vx, kk (41_control_flow.md R106). -/
def execSneImm (x : Nibble) (kk : Byte) (s : State) : Host.Outcome State Fault Refusal :=
  s.complete (.ok (s, .skipIf (s.readV x != kk)))

/-- SE Vx, Vy (41_control_flow.md R107). -/
def execSeReg (x y : Nibble) (s : State) : Host.Outcome State Fault Refusal :=
  s.complete (.ok (s, .skipIf (s.readV x == s.readV y)))

/-- SNE Vx, Vy (41_control_flow.md R108). -/
def execSneReg (x y : Nibble) (s : State) : Host.Outcome State Fault Refusal :=
  s.complete (.ok (s, .skipIf (s.readV x != s.readV y)))

/-- JP V0, nnn: a 16-bit sum, the offset always register 0 (41_control_flow.md R109). -/
def execJpV0 (nnn : Addr12) (s : State) : Host.Outcome State Fault Refusal :=
  s.complete (.ok (s, .jump (zextAddr nnn + zextByte (s.readV 0#4))))

end Sys2Proof.Machine
end

