-- ==== Sys2Proof/Machine/Display.lean ====
section
/-!
DEFINITION. The display instructions and the collision detector (44_display.md).
-/

namespace Sys2Proof.Machine

/-- `FB[px][py] <- b`. -/
def FrameBuffer.setPixel (fb : FrameBuffer) (px : Fin 64) (py : Fin 32) (b : Bool) : FrameBuffer :=
  fb.set py.val ((fb[py] &&& ~~~(1#64 <<< px.val)) ||| ((BitVec.ofBool b).setWidth 64 <<< px.val))

/-- The destination column of sprite column `bit`: `(x0 + bit) mod 64` (44_display.md R150, R152). -/
def spriteColumn (x0 : Byte) (bit : Nat) : Fin 64 := Fin.ofNat 64 (x0.toNat + bit)

/-- The destination row of sprite row `row`: `(y0 + row) mod 32` (44_display.md R150, R152). -/
def spriteRow (y0 : Byte) (row : Nat) : Fin 32 := Fin.ofNat 32 (y0.toNat + row)

/-- The pixel of sprite column `bit` in a row byte: the most significant bit is column 0 (44_display.md R150). -/
def spriteBit (b : Byte) (bit : Nat) : Bool := b.getLsbD (7 - bit)

/-- One bit of the draw: the pixel is XORed and the collision accumulated (44_display.md R152). -/
def drawBit (px : Fin 64) (py : Fin 32) (b : Bool) (acc : FrameBuffer × Bool) : FrameBuffer × Bool :=
  (FrameBuffer.setPixel acc.1 px py (FrameBuffer.pixel acc.1 px py ^^ b),
    acc.2 || (FrameBuffer.pixel acc.1 px py && b))

/-- The bits `bit` upward of one sprite row, `fuel` of them (44_display.md R152, the inner loop). -/
def drawBits (x0 : Byte) (py : Fin 32) (b : Byte) (fuel bit : Nat) (acc : FrameBuffer × Bool) : FrameBuffer × Bool :=
  match fuel with
  | 0 => acc
  | fuel + 1 => drawBits x0 py b fuel (bit + 1) (drawBit (spriteColumn x0 bit) py (spriteBit b bit) acc)

/-- The rows `row` upward of a sprite (44_display.md R152, the outer loop). -/
def drawRows (x0 y0 : Byte) (row : Nat) (acc : FrameBuffer × Bool) : List Byte → FrameBuffer × Bool
  | [] => acc
  | b :: bs => drawRows x0 y0 (row + 1) (drawBits x0 (spriteRow y0 row) b 8 0 acc) bs

/-- The draw of a sprite's bytes at `V[x]`, `V[y]`, latched before VF is written; VF receives the collision, and the
redraw flag is set (44_display.md R152). -/
def State.drawSprite (s : State) (x y : Nibble) (bytes : List Byte) : State :=
  let drawn := drawRows (s.readV x) (s.readV y) 0 (s.fb, false) bytes
  { s.writeV flagReg (flagByte drawn.2) with fb := drawn.1, redraw := true }

/-- CLS (44_display.md R151). -/
def execCls (s : State) : Host.Outcome State Fault Refusal :=
  s.complete (.ok ({ s with fb := Vector.replicate 32 0, redraw := true }, .next))

/-- DRW Vx, Vy, n (44_display.md R152). -/
def execDrw (x y n : Nibble) (s : State) : Host.Outcome State Fault Refusal :=
  s.complete ((s.memRead s.i n.toNat).map fun bytes => (s.drawSprite x y bytes, .next))

end Sys2Proof.Machine
end

