-- ==== Sys2Proof/Machine/IndexMemory.lean ====
section
/-!
DEFINITION. Index register and memory transfer (43_index_memory.md). All return Next; none writes VF as a flag; no
memory instruction changes `I` (R146).
-/

namespace Sys2Proof.Machine

/-- LD I, nnn (43_index_memory.md R140). -/
def execLdI (nnn : Addr12) (s : State) : Host.Outcome State Fault Refusal :=
  s.complete (.ok ({ s with i := zextAddr nnn }, .next))

/-- ADD I, Vx: modulo 65536, no flag (43_index_memory.md R141). -/
def execAddI (x : Nibble) (s : State) : Host.Outcome State Fault Refusal :=
  s.complete (.ok ({ s with i := s.i + zextByte (s.readV x) }, .next))

/-- LD F, Vx (43_index_memory.md R142). -/
def execLdF (x : Nibble) (s : State) : Host.Outcome State Fault Refusal :=
  s.complete ((s.digitOperand x).map fun d => ({ s with i := glyphAddr s.cfg d }, .next))

/-- LD B, Vx: three decimal digits at `I` upward (43_index_memory.md R143). -/
def execLdB (x : Nibble) (s : State) : Host.Outcome State Fault Refusal :=
  s.complete ((s.memWrite s.i (bcdDigits (s.readV x))).map fun t => (t, .next))

/-- LD [I], Vx: `V[0]` to `V[x]` at `I` upward (43_index_memory.md R144). -/
def execLdMemVx (x : Nibble) (s : State) : Host.Outcome State Fault Refusal :=
  s.complete ((s.memWrite s.i (s.regBlock x)).map fun t => (t, .next))

/-- LD Vx, [I]: `V[0]` to `V[x]` from `I` upward (43_index_memory.md R145). -/
def execLdVxMem (x : Nibble) (s : State) : Host.Outcome State Fault Refusal :=
  s.complete ((s.memRead s.i (x.toNat + 1)).map fun bs => (s.writeRegs 0 bs, .next))

end Sys2Proof.Machine
end

