-- ==== Sys2Proof/Machine/KeypadTimers.lean ====
section
/-!
DEFINITION. Keypad and timer instructions (45_keypad_timers.md). None writes VF as a flag and none touches memory.
-/

namespace Sys2Proof.Machine

/-- SKP Vx: by the snapshot latched in this tick's P2 (45_keypad_timers.md R160). -/
def execSkp (x : Nibble) (s : State) : Host.Outcome State Fault Refusal :=
  s.complete ((s.keyOperand x).map fun k => (s, .skipIf (s.keys.getLsbD k)))

/-- SKNP Vx (45_keypad_timers.md R161). -/
def execSknp (x : Nibble) (s : State) : Host.Outcome State Fault Refusal :=
  s.complete ((s.keyOperand x).map fun k => (s, .skipIf (!s.keys.getLsbD k)))

/-- LD Vx, DT (45_keypad_timers.md R162). -/
def execLdVxDt (x : Nibble) (s : State) : Host.Outcome State Fault Refusal :=
  s.complete (.ok (s.writeV x s.dt, .next))

/-- LD Vx, K: arms the wait, which a later tick resolves; `PC` advances in the arming tick (45_keypad_timers.md R163). -/
def execLdVxK (x : Nibble) (s : State) : Host.Outcome State Fault Refusal :=
  s.complete (.ok ({ s with wait := .waitingForKey x }, .next))

/-- LD DT, Vx (45_keypad_timers.md R164). -/
def execLdDtVx (x : Nibble) (s : State) : Host.Outcome State Fault Refusal :=
  s.complete (.ok ({ s with dt := s.readV x }, .next))

/-- LD ST, Vx (45_keypad_timers.md R165). -/
def execLdStVx (x : Nibble) (s : State) : Host.Outcome State Fault Refusal :=
  s.complete (.ok ({ s with st := s.readV x }, .next))

end Sys2Proof.Machine
end

