-- ==== Sys2Proof/Machine/Tick.lean ====
section
/-!
DEFINITION. The tick, the machine's only step (40_tick_cycle.md R80, R81): its phases in order.
-/

namespace Sys2Proof.Machine

/-- Phases P4 to P8, reached when no wait is pending: the timers count down, two bytes are fetched and decoded, and the
instruction runs. An out-of-range fetch raises MemRange and an unknown opcode DecodeFailure (R86, R89, R90). -/
def State.runInstruction (s : State) : Host.Outcome State Fault Refusal :=
  let t := s.countTimers
  match t.fetch with
  | .error f => .next (t.raise f)
  | .ok bs =>
    match decode bs with
    | .error _ => .next (t.raise (.decodeFailure (opcodeOf bs)))
    | .ok (i, _) => exec i t

/-- One tick with its keypad argument (R81): P0 a halted machine does nothing (R90); P1, P2 latch; P3 a pending wait
takes the whole tick (R84); otherwise the instruction of this tick. -/
def State.tick (s : State) (keys : Keys) : Host.Outcome State Fault Refusal :=
  if s.halted then .next s
  else
    match s.wait with
    | .waitingForKey r => .next ((s.latch keys).resolveWait r)
    | .running => (s.latch keys).runInstruction

end Sys2Proof.Machine
end

