-- ==== Sys2Proof/Machine/Step.lean ====
section
/-!
DEFINITION. The step: one tick with the keypad argument the host presents for it (40_tick_cycle.md R80, 10_state.md
R27(a)); and the placing of one instruction where the next step fetches (log entry 10).
-/

namespace Sys2Proof.Machine

/-- One tick (40_tick_cycle.md R80, R81). -/
def step (s : State) : Host.Outcome State Fault Refusal := s.tick s.nextKeys

/-- The state whose very next step fetches the instruction `w` of `nbits` bits, the bits above them zero. -/
def State.withFetchWord (s : State) (nbits w : Nat) : State := s.placeOpcode (BitVec.ofNat 16 (w % 2 ^ nbits))

end Sys2Proof.Machine
end

