-- ==== Sys2Proof/Safety.lean ====
section
/-!
DEFINITION. The terms claims use: what a safe state is, which parts of the state an operation leaves unchanged, and the
invariant the tick keeps.
-/

namespace Sys2Proof.Machine

/-- The safety premise of a claim: no fault is recorded (60_exceptions.md R170). -/
def State.safe (s : State) : Prop := s.fault.cause = .noFault

/-! ## Frames -/

/-- The parts of the state, `PC` apart: one per piece of state of 10_state.md R10, and the model's own fields. -/
inductive Part where
  | regs | index | stackPtr | stack | delay | sound | keys | wait | frameBuffer | redraw | memory | fault
  | config | keyInput | rndInput
deriving DecidableEq, Repr

/-- A part is the same in two states. Memory is the same when every byte reads the same. -/
def Part.same (s t : State) : Part → Prop
  | .regs => ∀ r, t.readV r = s.readV r
  | .index => t.i = s.i
  | .stackPtr => t.sp = s.sp
  | .stack => t.stack = s.stack
  | .delay => t.dt = s.dt
  | .sound => t.st = s.st
  | .keys => t.keys = s.keys
  | .wait => t.wait = s.wait
  | .frameBuffer => t.fb = s.fb
  | .redraw => t.redraw = s.redraw
  | .memory => ∀ a, t.readByte a = s.readByte a
  | .fault => t.fault = s.fault
  | .config => t.cfg = s.cfg
  | .keyInput => t.keyArgs = s.keyArgs ∧ t.keyArgsTaken = s.keyArgsTaken
  | .rndInput => t.rndBytes = s.rndBytes ∧ t.rndTaken = s.rndTaken

/-- From `s` to `t` nothing changes but the listed parts and `PC`. -/
def OnlyChanges (ps : List Part) (s t : State) : Prop := ∀ p, p ∉ ps → p.same s t

/-- Every general register but the listed ones is unchanged. -/
def RegsKeptBut (rs : List Nibble) (s t : State) : Prop := ∀ r, r ∉ rs → t.readV r = s.readV r

/-- Every byte of memory outside the `len` bytes from `a` reads as before. -/
def BytesKeptOutside (a len : Nat) (s t : State) : Prop :=
  ∀ b, ¬ (a ≤ b ∧ b < a + len) → t.readByte b = s.readByte b

/-- From `s` to `t` nothing changes but the fault record, which holds what raising `f` at `s` gives: the record is
filled if it was none, and otherwise stays (60_exceptions.md R170, R174). `PC` is unchanged. -/
def Faulted (f : Fault) (s t : State) : Prop :=
  t.pc = s.pc ∧ OnlyChanges [.fault] s t
    ∧ (s.fault.cause = .noFault → t.fault = { cause := f.cause, info := f.info, pc := s.pc })
    ∧ (s.fault.cause ≠ .noFault → t.fault = s.fault)

/-- The opcode that stands at `PC` (20_memory.md R43), for `PC <= 0xFFE`. -/
def State.opcodeAtPc (s : State) : Word := wordOfBytes (s.readByte s.pc.toNat) (s.readByte (s.pc.toNat + 1))

/-- A word that no tick executes: it matches no row, or it is SYS (30_encoding.md R66, R67). -/
def NotExecuted (w : Word) : Prop := (∃ e, decodeWord w = .error e) ∨ ∃ nnn, decodeWord w = .ok (.sys nnn)

/-- The parts an instruction may change when it raises no fault, `PC` apart (the instruction rules; 10_state.md R12, R16,
R17, R19 to R24, R26). -/
def writes : Instr → List Part
  | .sys _ | .jp _ | .jpV0 _ => []
  | .seImm _ _ | .sneImm _ _ | .seReg _ _ | .sneReg _ _ | .skp _ | .sknp _ => []
  | .cls => [.frameBuffer, .redraw]
  | .ret => [.stackPtr]
  | .call _ => [.stackPtr, .stack]
  | .ldImm _ _ | .addImm _ _ | .ldReg _ _ | .orReg _ _ | .andReg _ _ | .xorReg _ _ => [.regs]
  | .addReg _ _ | .sub _ _ | .shr _ _ | .subn _ _ | .shl _ _ => [.regs]
  | .rnd _ _ => [.regs, .rndInput]
  | .drw _ _ _ => [.regs, .frameBuffer, .redraw]
  | .ldVxDt _ | .ldVxMem _ => [.regs]
  | .ldVxK _ => [.wait]
  | .ldDtVx _ => [.delay]
  | .ldStVx _ => [.sound]
  | .ldI _ | .addI _ | .ldF _ => [.index]
  | .ldB _ | .ldMemVx _ => [.memory]

/-- The instruction the tick of a running machine executes: the one whose word stands at `PC`, if it can be fetched. -/
def State.executes (s : State) (i : Instr) : Prop := s.pc.toNat ≤ 0xFFE ∧ decodeWord s.opcodeAtPc = .ok i

/-- THE END OF A RUN (40_tick_cycle.md R94; log entry 16): the core has none of its own and no instruction halts it, so
the model calls a run ended where `PC = a` and the word at `a` is `JP a`. A halted machine and a decode-failure loop are
no end (their record is not safe), nor is a wait. -/
def State.finished (s : State) : Prop :=
  s.safe ∧ s.wait = .running ∧ s.executes (.jp (s.pc.setWidth 12))

/-- Successive ticks with the keypad arguments of a list. -/
def State.ticks (s : State) : List Keys → Host.Outcome State Fault Refusal
  | [] => .next s
  | k :: ks =>
    match s.tick k with
    | .next t => t.ticks ks
    | .fault f => .fault f
    | .refused r => .refused r

/-! ## The invariant (10_state.md R15, R30; 60_exceptions.md R170) -/

/-- What every tick keeps. -/
structure State.Inv (s : State) : Prop where
  /-- The memory is in its canonical form, all of it below 0x1000. -/
  memWf : Memory.wf s.cfg s.mem = true
  /-- `PC` never exceeds the largest value an instruction can give it, the corner 0x10FE of JP V0. -/
  pcBound : s.pc.toNat ≤ 0x10FE
  /-- Every stack slot holds an address a CALL can stand at, or the reset value. -/
  stackBound : ∀ k : Fin 16, s.stack[k].toNat ≤ 0xFFE
  /-- A record without a cause is 0/0/0. -/
  faultNone : s.fault.cause = .noFault → s.fault.info = 0 ∧ s.fault.pc = 0
  /-- The recorded `PC` of a fault is the `PC`: nothing has moved since. -/
  faultPc : s.fault.cause ≠ .noFault → s.fault.pc = s.pc
  /-- After a decode failure the recorded word still stands at `PC` and is still not executed, so no second fault with
  another cause can follow (60_exceptions.md R172, R173). -/
  decodeStuck : s.fault.cause = .decodeFailure →
    s.wait = .running ∧ s.pc.toNat ≤ 0xFFE ∧ s.opcodeAtPc = s.fault.info ∧ NotExecuted s.fault.info

end Sys2Proof.Machine
end

