-- ==== Sys2Proof/Certificates/Slice0/Obligations.lean ====
section
/-!
DEFINITION. The statements for the provers. A statement about an instruction gives its result, its PC effect and its
frame: `OnlyChanges` lists the parts of the state that may differ, `PC` apart; `RegsKeptBut` the general registers and
`BytesKeptOutside` the bytes of memory that may. A statement about a tick quantifies over its keypad argument `k`;
`step` is the tick with the argument the host presents (StepIsTheTickOfTheHost).
-/

open Sys2Proof Sys2Proof.Machine

/-! ## Encoding -/

/-- 30_encoding.md R64 on words written out from its patterns, one or more per family, some of them words from the
vectors of 95_test_vectors.md: those of E1, E2, E3, E5 and E9, and one each of E4 (0x0123), E6 (0xE19F) and E7
(0x8AB6). The patterns are the spec's decision D2, strict matching its decision D3 (92_eei_decisions.md). -/
def Obligations.SpecWordsDecodeAsTheTableSays : Prop :=
  decodeWord 0x00E0#16 = .ok .cls ∧ decodeWord 0x00EE#16 = .ok .ret ∧ decodeWord 0x0123#16 = .ok (.sys 0x123#12)
  ∧ decodeWord 0x12A0#16 = .ok (.jp 0x2A0#12) ∧ decodeWord 0xB300#16 = .ok (.jpV0 0x300#12)
  ∧ decodeWord 0x5120#16 = .ok (.seReg 1#4 2#4) ∧ decodeWord 0x637F#16 = .ok (.ldImm 3#4 0x7F#8)
  ∧ decodeWord 0x8AB6#16 = .ok (.shr 0xA#4 0xB#4) ∧ decodeWord 0x8127#16 = .ok (.subn 1#4 2#4)
  ∧ decodeWord 0xFF55#16 = .ok (.ldMemVx 0xF#4) ∧ decodeWord 0xF033#16 = .ok (.ldB 0#4)
  ∧ decodeWord 0xD125#16 = .ok (.drw 1#4 2#4 5#4) ∧ decodeWord 0xE1A1#16 = .ok (.sknp 1#4)
  ∧ decodeWord 0xF50A#16 = .ok (.ldVxK 5#4) ∧ decodeWord 0x5121#16 = .error .unknownClass5
  ∧ decodeWord 0xE19F#16 = .error .unknownClassE

/-- Decoding reads back every well-formed instruction from its word, and from its two bytes in memory order whatever
follows them (30_encoding.md R61, R64, R70). The patterns are the spec's decision D2, the byte order its decision D1.
-/
def Obligations.DecodeReadsBackEveryInstruction : Prop :=
  ∀ (i : Instr) (rest : List Byte), i.wellFormed = true →
    decodeWord (encode i) = .ok i ∧ decode (encodeBytes i ++ rest) = .ok (i, rest)

/-- Every word that decodes is the word of the instruction it decodes to, which is well formed: no bit is dropped and
no two words decode alike (30_encoding.md R61, R65, R68). The patterns are the spec's decisions D2 and D3. -/
def Obligations.DecodedWordsEncodeBack : Prop :=
  ∀ (w : Word) (i : Instr), decodeWord w = .ok i → encode i = w ∧ i.wellFormed = true

/-- 30_encoding.md R70: a word is its row's match with the row's fields at their places, format by format, and its
bytes are the high byte, then the low byte; with the rule's example. The rule is the spec's derivation; the patterns
are its decision D2, the byte order its decision D1. -/
def Obligations.EncodingIsTheMatchWithItsFields : Prop :=
  (∀ i : Instr, encode i = i.row.bits ||| match i with
    | .cls | .ret => 0#16
    | .sys nnn | .jp nnn | .call nnn | .ldI nnn | .jpV0 nnn => nnn.setWidth 16
    | .seImm x kk | .sneImm x kk | .ldImm x kk | .addImm x kk | .rnd x kk =>
      (x.setWidth 16 <<< 8) ||| kk.setWidth 16
    | .seReg x y | .sneReg x y | .ldReg x y | .orReg x y | .andReg x y | .xorReg x y | .addReg x y | .sub x y
    | .shr x y | .subn x y | .shl x y => (x.setWidth 16 <<< 8) ||| (y.setWidth 16 <<< 4)
    | .drw x y n => (x.setWidth 16 <<< 8) ||| (y.setWidth 16 <<< 4) ||| n.setWidth 16
    | .skp x | .sknp x | .ldVxDt x | .ldVxK x | .ldDtVx x | .ldStVx x | .addI x | .ldF x | .ldB x | .ldMemVx x
    | .ldVxMem x => x.setWidth 16 <<< 8)
  ∧ (∀ i : Instr, encodeBytes i = [(encode i).extractLsb' 8 8, (encode i).extractLsb' 0 8])
  ∧ encode (.drw 1#4 2#4 5#4) = 0xD125#16 ∧ encodeBytes (.drw 1#4 2#4 5#4) = [0xD1#8, 0x25#8]

/-- 30_encoding.md R64, R65: the decoder answers an instruction exactly of the row that the word selects, CLS and RET
before SYS, and refuses a word that selects no row; no two rows but those are selected by one word. The patterns are
the spec's decision D2, strict matching its decision D3. -/
def Obligations.DecoderSelectsTheRowOfTheTable : Prop :=
  (∀ (w : Word) (i : Instr), decodeWord w = .ok i → i.row ∈ opcodeTable ∧ w &&& i.row.mask = i.row.bits)
  ∧ (∀ (w : Word) (r : OpRow), r ∈ opcodeTable → w &&& r.mask = r.bits → r.id ≠ "sys" →
      ∃ i, decodeWord w = .ok i ∧ i.row = r)
  ∧ (∀ (w : Word), w &&& 0xF000#16 = 0x0000#16 → w ≠ 0x00E0#16 → w ≠ 0x00EE#16 →
      ∃ nnn, decodeWord w = .ok (.sys nnn))
  ∧ (∀ (w : Word) (r q : OpRow), r ∈ opcodeTable → q ∈ opcodeTable → w &&& r.mask = r.bits → w &&& q.mask = q.bits →
      r = q ∨ w = 0x00E0#16 ∨ w = 0x00EE#16)

/-- The words that decode to nothing are exactly those of the five classes of 30_encoding.md R66. The patterns are the
spec's decision D2, strict matching its decision D3. -/
def Obligations.UnknownWordsAreExactlyTheListedOnes : Prop :=
  ∀ w : Word, (∃ e, decodeWord w = .error e) ↔
    (fieldClass w = 0x5#4 ∧ fieldN w ≠ 0#4)
    ∨ (fieldClass w = 0x8#4 ∧ fieldN w ∈ [0x8#4, 0x9#4, 0xA#4, 0xB#4, 0xC#4, 0xD#4, 0xF#4])
    ∨ (fieldClass w = 0x9#4 ∧ fieldN w ≠ 0#4)
    ∨ (fieldClass w = 0xE#4 ∧ fieldKK w ∉ [0x9E#8, 0xA1#8])
    ∨ (fieldClass w = 0xF#4
        ∧ fieldKK w ∉ [0x07#8, 0x0A#8, 0x15#8, 0x18#8, 0x1E#8, 0x29#8, 0x33#8, 0x55#8, 0x65#8])

/-- Every instruction is exactly two bytes, the first the more significant, and fewer than two decode to nothing
(30_encoding.md R60, 20_memory.md R43). The byte order is the spec's decision D1. -/
def Obligations.EveryInstructionIsTwoBytes : Prop :=
  decode [] = .error .truncated ∧ (∀ b, decode [b] = .error .truncated)
  ∧ ∀ (bs rest : List Byte) (i : Instr), decode bs = .ok (i, rest) →
      ∃ hi lo, bs = hi :: lo :: rest ∧ decodeWord (hi ++ lo) = .ok i

/-! ## The step -/

/-- A step is the tick with the keypad argument the host presents: the first one lined up, else the free value of this
tick, whatever it is (log entry 1). -/
def Obligations.StepIsTheTickOfTheHost : Prop :=
  (∀ (s : State) (k : Keys) (ks : List Keys), s.keyArgs = k :: ks → step s = s.tick k)
  ∧ ∀ s : State, s.keyArgs = [] → step s = s.tick (Config.freeKeys s.keyArgsTaken)

/-- When the bytes at PC decode to an instruction, a step of a running machine is `exec` of it at the state in which
the redraw flag is cleared, the keypad latched and the timers counted down (40_tick_cycle.md R81). The keypad argument
is the model's input (log entry 1). -/
def Obligations.StepRunsTheDecodedInstruction : Prop :=
  ∀ (s : State) (i : Instr), s.halted = false → s.wait = .running → s.pc.toNat ≤ 0xFFE →
    decode [s.readByte s.pc.toNat, s.readByte (s.pc.toNat + 1)] = .ok (i, []) →
    i.wellFormed = true ∧
    step s = exec i { s with
      redraw := false, keys := s.nextKeys, keyArgs := s.keyArgs.tail, keyArgsTaken := s.keyArgsTaken + 1,
      dt := if s.dt = 0 then 0 else s.dt - 1, st := if s.st = 0 then 0 else s.st - 1 }

/-- Placing an opcode makes the very next step, from any state, run its instruction, with `PC` at it (log entry 10). -/
def Obligations.PlacedOpcodeRunsNext : Prop :=
  ∀ (s : State) (w : Word) (i : Instr), decodeWord w = .ok i →
    ∃ t : State, t.wait = .running ∧ t.halted = false ∧ t.pc.toNat ≤ 0xFFE ∧ t.opcodeAtPc = w
      ∧ s.withFetchWord 16 w.toNat = t
      ∧ step t = exec i { t with
          redraw := false, keys := t.nextKeys, keyArgs := t.keyArgs.tail, keyArgsTaken := t.keyArgsTaken + 1,
          dt := if t.dt = 0 then 0 else t.dt - 1, st := if t.st = 0 then 0 else t.st - 1 }
      ∧ (s.pc.toNat ≤ 0xFFE → t.pc = s.pc) ∧ OnlyChanges [.memory, .wait, .fault] s t
      ∧ BytesKeptOutside t.pc.toNat 2 s t

/-- 40_tick_cycle.md R90, 60_exceptions.md R173: with a fatal cause latched (codes 2 to 6) every tick, and every number
of ticks, is a no-op. The halt is the spec's decision D6. -/
def Obligations.HaltedMachineNeverChanges : Prop :=
  ∀ (s : State), 2 ≤ s.fault.cause.code → step s = .next s ∧ ∀ ks : List Keys, s.ticks ks = .next s

/-- 40_tick_cycle.md R84: a tick that finds the wait pending latches the lowest key down into the target register and
ends the wait, or with no key down changes nothing. Either way the tick ends there: the timers hold, nothing is fetched
or executed and `PC` stays, whatever else the machine holds; only the snapshot and the redraw flag change beside. That
the tick latches the keys and clears the redraw flag is R83 and R82; that it clears the flag while waiting is the
spec's decision D31. -/
def Obligations.WaitResolvesOrHolds : Prop :=
  ∀ (s : State) (r : Nibble) (k : Keys), s.halted = false → s.wait = .waitingForKey r →
    ∃ t, s.tick k = .next t ∧ t.pc = s.pc ∧ t.keys = k ∧ t.redraw = false
      ∧ (∀ n, n < 16 → k.getLsbD n = true → (∀ j, j < n → k.getLsbD j = false) →
          t.readV r = BitVec.ofNat 8 n ∧ t.wait = .running ∧ RegsKeptBut [r] s t)
      ∧ (k = 0#16 → t.wait = .waitingForKey r ∧ RegsKeptBut [] s t)
      ∧ OnlyChanges [.regs, .wait, .keys, .redraw, .keyInput] s t

/-- 40_tick_cycle.md R83, of SKP and SKNP: every tick of a machine that is not halted replaces the snapshot by its
argument, waiting or not, and SKP and SKNP of the same tick, with an index of at most 15, go by the new snapshot,
whatever the old one was. Which key state skips is R160 and R161, which the spec marks as general knowledge; that a
higher index is left out here is its decision D13 (KeySkips says what it raises). That a pending wait goes by the new
snapshot too is stated in WaitResolvesOrHolds. -/
def Obligations.SnapshotIsReplacedEachTick : Prop :=
  ∀ (s t : State) (k : Keys), s.halted = false → s.tick k = .next t →
    t.keys = k
    ∧ (s.wait = .running → ∀ x : Nibble, (s.readV x).toNat ≤ 15 →
        (s.executes (.skp x) → t.pc = if k.getLsbD (s.readV x).toNat = true then s.pc + 4#16 else s.pc + 2#16)
        ∧ (s.executes (.sknp x) → t.pc = if k.getLsbD (s.readV x).toNat = true then s.pc + 2#16 else s.pc + 4#16))

/-- 40_tick_cycle.md R85: in every tick of a machine neither halted nor waiting, one that fails to decode or faults
included, each timer counts down by one and stops at zero, independently and before the instruction: LD Vx, DT reads
the value counted down, and what LD DT or LD ST writes stands at the end of the tick. In a waiting tick both hold. -/
def Obligations.TimersCountDownOncePerExecutingTick : Prop :=
  ∀ (s t : State) (k : Keys), s.halted = false → s.tick k = .next t →
    (s.wait = .running →
      ((∀ x, ¬ s.executes (.ldDtVx x)) → t.dt.toNat = s.dt.toNat - 1)
      ∧ ((∀ x, ¬ s.executes (.ldStVx x)) → t.st.toNat = s.st.toNat - 1)
      ∧ (∀ x, s.executes (.ldVxDt x) → (t.readV x).toNat = s.dt.toNat - 1)
      ∧ (∀ x, s.executes (.ldDtVx x) → t.dt = s.readV x)
      ∧ ∀ x, s.executes (.ldStVx x) → t.st = s.readV x)
    ∧ (∀ r, s.wait = .waitingForKey r → t.dt = s.dt ∧ t.st = s.st)

/-- 40_tick_cycle.md R88: each instruction that completes has its PC effect, applied to the address it was fetched
from: a jump for JP, CALL, RET and JP V0, a skip or an advance for the six skips, an advance for every other. The
targets are R102, R103, R104 and R109; the range of JP V0 and its register 0 are the spec's decision D18, the advance
of LD Vx, K its decision D19, and that SYS never completes is R101 with its decision D4. -/
def Obligations.EveryInstructionHasItsPcEffect : Prop :=
  ∀ (i : Instr) (s t : State), s.safe → exec i s = .next t → t.safe →
    match i with
    | .sys _ => False
    | .jp nnn | .call nnn => t.pc.toNat = nnn.toNat
    | .ret => ∃ j : Fin 16, s.sp.toNat = j.val + 1 ∧ t.pc = s.stack[j] + 2#16
    | .jpV0 nnn => t.pc.toNat = nnn.toNat + (s.readV 0#4).toNat
    | .seImm _ _ | .sneImm _ _ | .seReg _ _ | .sneReg _ _ | .skp _ | .sknp _ =>
      t.pc = s.pc + 2#16 ∨ t.pc = s.pc + 4#16
    | _ => t.pc = s.pc + 2#16

/-- 40_tick_cycle.md R89: a tick that meets an unknown opcode or SYS records the failure if no fault was recorded, does
not advance `PC`, and changes nothing but what phases P1, P2 and P4 change. The failure's course is the spec's decision
D5, SYS its decision D4, the record its decision D25. -/
def Obligations.DecodeFailureTick : Prop :=
  ∀ (s : State) (k : Keys), s.halted = false → s.wait = .running → s.pc.toNat ≤ 0xFFE → NotExecuted s.opcodeAtPc →
    ∃ t, s.tick k = .next t ∧ t.pc = s.pc ∧ t.redraw = false ∧ t.keys = k
      ∧ t.dt.toNat = s.dt.toNat - 1 ∧ t.st.toNat = s.st.toNat - 1
      ∧ OnlyChanges [.delay, .sound, .keys, .redraw, .fault, .keyInput] s t
      ∧ (s.fault.cause = .noFault → t.fault = { cause := .decodeFailure, info := s.opcodeAtPc, pc := s.pc })
      ∧ (s.fault.cause ≠ .noFault → t.fault = s.fault)

/-- 40_tick_cycle.md R89, 60_exceptions.md R172: the failure recurs on every subsequent tick. After any positive number
of ticks, whatever the keys, `PC`, memory, registers, stack and framebuffer are as before the first, the record is the
first failure's, and the timers have run down by one per tick. The failure's course is the spec's decision D5, SYS its
decision D4. -/
def Obligations.DecodeFailureRecursOnEveryTick : Prop :=
  ∀ (ks : List Keys) (s : State), ks ≠ [] → s.fault.cause = .noFault → s.wait = .running → s.pc.toNat ≤ 0xFFE →
    NotExecuted s.opcodeAtPc →
    ∃ t, s.ticks ks = .next t ∧ t.pc = s.pc ∧ t.redraw = false ∧ some t.keys = ks.getLast?
      ∧ t.dt.toNat = s.dt.toNat - ks.length ∧ t.st.toNat = s.st.toNat - ks.length
      ∧ t.fault = { cause := .decodeFailure, info := s.opcodeAtPc, pc := s.pc }
      ∧ OnlyChanges [.delay, .sound, .keys, .redraw, .fault, .keyInput] s t

/-- 40_tick_cycle.md R86, 20_memory.md R43: a fetch with `PC > 0xFFE` raises MemRange with the first out-of-range
address, `PC` if `PC > 0xFFF` and else 0x1000, and `PC` does not move; phases P1, P2 and P4 are kept. The fault is the
spec's decision D6; a record that already stands stays (log entry 7). -/
def Obligations.FetchOutOfRangeRaisesMemRange : Prop :=
  ∀ (s : State) (k : Keys), s.halted = false → s.wait = .running → s.pc.toNat > 0xFFE →
    ∃ t, s.tick k = .next t ∧ t.pc = s.pc ∧ t.redraw = false ∧ t.keys = k
      ∧ t.dt.toNat = s.dt.toNat - 1 ∧ t.st.toNat = s.st.toNat - 1
      ∧ OnlyChanges [.delay, .sound, .keys, .redraw, .fault, .keyInput] s t
      ∧ (s.fault.cause = .noFault → t.fault.cause = .memRange ∧ t.fault.pc = s.pc
          ∧ t.fault.info = if s.pc.toNat > 0xFFF then s.pc else 0x1000#16)
      ∧ (s.fault.cause ≠ .noFault → t.fault = s.fault)

/-- 60_exceptions.md R170: once a fault is recorded, no tick changes the record. The record is the spec's decision D25.
-/
def Obligations.FaultRecordIsSticky : Prop :=
  ∀ (s t : State) (k : Keys), s.tick k = .next t → s.fault.cause ≠ .noFault → t.fault = s.fault

/-- 60_exceptions.md R174: a tick that records a fault is precise. `PC` is that of the faulting instruction and is what
the record holds; nothing else changes but what phases P1, P2 and P4 of the tick did, which is kept. Precision is the
spec's decision D6. -/
def Obligations.FaultingTickIsPrecise : Prop :=
  ∀ (s t : State) (k : Keys), s.tick k = .next t → t.fault ≠ s.fault →
    t.pc = s.pc ∧ t.fault.pc = s.pc ∧ t.keys = k ∧ t.redraw = false
    ∧ t.dt.toNat = s.dt.toNat - 1 ∧ t.st.toNat = s.st.toNat - 1
    ∧ OnlyChanges [.delay, .sound, .keys, .redraw, .keyInput, .fault] s t

/-- 60_exceptions.md R171, R175: which instruction raises which fault, on what condition and with what `info`; every
other instruction raises none. The faults are the spec's decisions D4, D6, D7, D12, D13, the codes and `info` its
decision D25, the priority D29. -/
def Obligations.EachInstructionRaisesOnlyItsOwnFault : Prop :=
  ∀ (i : Instr) (s t : State), exec i s = .next t → t.fault ≠ s.fault →
    match i with
    | .sys nnn => t.fault.cause = .decodeFailure ∧ t.fault.info.toNat = nnn.toNat
    | .call nnn => t.fault.cause = .stackOverflow ∧ t.fault.info.toNat = nnn.toNat ∧ s.sp = 15#4
    | .ret => t.fault.cause = .stackUnderflow ∧ t.fault.info = 0#16 ∧ s.sp = 0#4
    | .drw _ _ n => t.fault.cause = .memRange ∧ t.fault.info.toNat = max s.i.toNat 0x1000
        ∧ n ≠ 0#4 ∧ s.i.toNat + (n.toNat - 1) > 0xFFF
    | .ldB _ => t.fault.cause = .memRange ∧ t.fault.info.toNat = max s.i.toNat 0x1000 ∧ s.i.toNat + 2 > 0xFFF
    | .ldMemVx x => t.fault.cause = .memRange ∧ t.fault.info.toNat = max s.i.toNat 0x1000
        ∧ s.i.toNat + x.toNat > 0xFFF
    | .ldVxMem x => t.fault.cause = .memRange ∧ t.fault.info.toNat = max s.i.toNat 0x1000
        ∧ s.i.toNat + x.toNat > 0xFFF
    | .skp x => t.fault.cause = .keyIndexRange ∧ t.fault.info.toNat = (s.readV x).toNat ∧ (s.readV x).toNat > 15
    | .sknp x => t.fault.cause = .keyIndexRange ∧ t.fault.info.toNat = (s.readV x).toNat ∧ (s.readV x).toNat > 15
    | .ldF x => t.fault.cause = .glyphIndexRange ∧ t.fault.info.toNat = (s.readV x).toNat ∧ (s.readV x).toNat > 15
    | _ => False

/-- Every instruction and every tick answers a next state, and none changes the configuration: the spec gives each an
effect, so nothing stops the model (60_exceptions.md R173, R189). That a fault is a next state is the model's reading
(log entry 6). -/
def Obligations.EveryTickAnswersANextState : Prop :=
  (∀ (i : Instr) (s : State), ∃ t, exec i s = .next t ∧ t.cfg = s.cfg)
  ∧ ∀ (s : State) (k : Keys), ∃ t, s.tick k = .next t ∧ t.cfg = s.cfg

/-! ## Register loads, arithmetic, logic, shifts, random -/

/-- 42_alu.md R122, R124: LD Vx, kk and LD Vx, Vy, register 15 as any other. The semantics are marked by the spec as
general knowledge. -/
def Obligations.RegisterLoads : Prop :=
  (∀ (x : Nibble) (kk : Byte) (s : State), ∃ t, exec (.ldImm x kk) s = .next t
    ∧ t.readV x = kk ∧ RegsKeptBut [x] s t ∧ t.pc = s.pc + 2#16 ∧ OnlyChanges [.regs] s t)
  ∧ ∀ (x y : Nibble) (s : State), ∃ t, exec (.ldReg x y) s = .next t
    ∧ t.readV x = s.readV y ∧ RegsKeptBut [x] s t ∧ t.pc = s.pc + 2#16 ∧ OnlyChanges [.regs] s t

/-- 42_alu.md R123: ADD Vx, kk is modulo 256 and writes no flag. That no flag is written is the spec's decision D28. -/
def Obligations.AddImmediateWrapsWithoutAFlag : Prop :=
  ∀ (x : Nibble) (kk : Byte) (s : State), ∃ t, exec (.addImm x kk) s = .next t
    ∧ (t.readV x).toNat = ((s.readV x).toNat + kk.toNat) % 256
    ∧ RegsKeptBut [x] s t ∧ t.pc = s.pc + 2#16 ∧ OnlyChanges [.regs] s t

/-- 42_alu.md R125 to R127: OR, AND, XOR bit by bit, VF left unchanged when it is not the destination. That VF is
unchanged is the spec's decision D16. -/
def Obligations.LogicInstructionsWorkBitByBit : Prop :=
  ∀ (x y : Nibble) (s : State),
    (∃ t, exec (.orReg x y) s = .next t
      ∧ (∀ b, (t.readV x).getLsbD b = ((s.readV x).getLsbD b || (s.readV y).getLsbD b))
      ∧ RegsKeptBut [x] s t ∧ t.pc = s.pc + 2#16 ∧ OnlyChanges [.regs] s t)
    ∧ (∃ t, exec (.andReg x y) s = .next t
      ∧ (∀ b, (t.readV x).getLsbD b = ((s.readV x).getLsbD b && (s.readV y).getLsbD b))
      ∧ RegsKeptBut [x] s t ∧ t.pc = s.pc + 2#16 ∧ OnlyChanges [.regs] s t)
    ∧ (∃ t, exec (.xorReg x y) s = .next t
      ∧ (∀ b, (t.readV x).getLsbD b = ((s.readV x).getLsbD b ^^ (s.readV y).getLsbD b))
      ∧ RegsKeptBut [x] s t ∧ t.pc = s.pc + 2#16 ∧ OnlyChanges [.regs] s t)

/-- 42_alu.md R128 with R121: ADD Vx, Vy. Away from register 15 both orders give the sum modulo 256 and the carry; with
register 15 as `x` or `y` each order gives what the rule says of it. The clauses for register 15 rest on the spec's
decision D14. -/
def Obligations.AddWithCarry : Prop :=
  ∀ (x y : Nibble) (s : State) (a b c : Nat), a = (s.readV x).toNat → b = (s.readV y).toNat →
    c = (if a + b > 255 then 1 else 0) →
    ∃ t, exec (.addReg x y) s = .next t
      ∧ (x ≠ 15#4 → (t.readV 15#4).toNat = c)
      ∧ (x ≠ 15#4 → y ≠ 15#4 → (t.readV x).toNat = (a + b) % 256)
      ∧ (s.cfg.vfWriteOrder = .flagLast → (t.readV 15#4).toNat = c
          ∧ (x ≠ 15#4 → (t.readV x).toNat = (a + b) % 256))
      ∧ (s.cfg.vfWriteOrder = .flagFirst → x = 15#4 → y ≠ 15#4 → (t.readV 15#4).toNat = (c + b) % 256)
      ∧ (s.cfg.vfWriteOrder = .flagFirst → x = 15#4 → y = 15#4 → (t.readV 15#4).toNat = (2 * c) % 256)
      ∧ (s.cfg.vfWriteOrder = .flagFirst → x ≠ 15#4 → y = 15#4 → (t.readV x).toNat = (a + c) % 256)
      ∧ RegsKeptBut [x, 15#4] s t ∧ t.pc = s.pc + 2#16 ∧ OnlyChanges [.regs] s t

/-- 42_alu.md R129 with R121: SUB Vx, Vy, the flag strict greater-than on the values before. Differences are taken
modulo 256. The clauses for register 15 rest on the spec's decision D14. -/
def Obligations.SubtractWithStrictGreaterFlag : Prop :=
  ∀ (x y : Nibble) (s : State) (a b c : Nat), a = (s.readV x).toNat → b = (s.readV y).toNat →
    c = (if a > b then 1 else 0) →
    ∃ t, exec (.sub x y) s = .next t
      ∧ (x ≠ 15#4 → (t.readV 15#4).toNat = c)
      ∧ (x ≠ 15#4 → y ≠ 15#4 → (t.readV x).toNat = (256 + a - b) % 256)
      ∧ (s.cfg.vfWriteOrder = .flagLast → (t.readV 15#4).toNat = c
          ∧ (x ≠ 15#4 → (t.readV x).toNat = (256 + a - b) % 256))
      ∧ (s.cfg.vfWriteOrder = .flagFirst → x = 15#4 → y ≠ 15#4 → (t.readV 15#4).toNat = (256 + c - b) % 256)
      ∧ (s.cfg.vfWriteOrder = .flagFirst → x = 15#4 → y = 15#4 → (t.readV 15#4).toNat = 0)
      ∧ (s.cfg.vfWriteOrder = .flagFirst → x ≠ 15#4 → y = 15#4 → (t.readV x).toNat = (256 + a - c) % 256)
      ∧ RegsKeptBut [x, 15#4] s t ∧ t.pc = s.pc + 2#16 ∧ OnlyChanges [.regs] s t

/-- 42_alu.md R131 with R121: SUBN Vx, Vy, the operands of SUB exchanged. The clauses for register 15 rest on the
spec's decision D14. -/
def Obligations.ReverseSubtractWithStrictGreaterFlag : Prop :=
  ∀ (x y : Nibble) (s : State) (a b c : Nat), a = (s.readV x).toNat → b = (s.readV y).toNat →
    c = (if b > a then 1 else 0) →
    ∃ t, exec (.subn x y) s = .next t
      ∧ (x ≠ 15#4 → (t.readV 15#4).toNat = c)
      ∧ (x ≠ 15#4 → y ≠ 15#4 → (t.readV x).toNat = (256 + b - a) % 256)
      ∧ (s.cfg.vfWriteOrder = .flagLast → (t.readV 15#4).toNat = c
          ∧ (x ≠ 15#4 → (t.readV x).toNat = (256 + b - a) % 256))
      ∧ (s.cfg.vfWriteOrder = .flagFirst → x = 15#4 → y ≠ 15#4 → (t.readV 15#4).toNat = (256 + b - c) % 256)
      ∧ (s.cfg.vfWriteOrder = .flagFirst → x = 15#4 → y = 15#4 → (t.readV 15#4).toNat = 0)
      ∧ (s.cfg.vfWriteOrder = .flagFirst → x ≠ 15#4 → y = 15#4 → (t.readV x).toNat = (256 + c - a) % 256)
      ∧ RegsKeptBut [x, 15#4] s t ∧ t.pc = s.pc + 2#16 ∧ OnlyChanges [.regs] s t

/-- 42_alu.md R130 with R121: SHR Vx halves `V[x]` in place and VF receives bit 0, whatever `y` is; with `x = 15` the
flag remains under `flag_last` and 0 under `flag_first`. The clauses for register 15 rest on the spec's decision D14.
-/
def Obligations.ShiftRightInPlace : Prop :=
  ∀ (x y : Nibble) (s : State) (a : Nat), a = (s.readV x).toNat →
    ∃ t, exec (.shr x y) s = .next t
      ∧ (x ≠ 15#4 → (t.readV x).toNat = a / 2 ∧ (t.readV 15#4).toNat = a % 2)
      ∧ (s.cfg.vfWriteOrder = .flagLast → (t.readV 15#4).toNat = a % 2)
      ∧ (s.cfg.vfWriteOrder = .flagFirst → x = 15#4 → (t.readV 15#4).toNat = 0)
      ∧ RegsKeptBut [x, 15#4] s t ∧ t.pc = s.pc + 2#16 ∧ OnlyChanges [.regs] s t

/-- 42_alu.md R132 with R121: SHL Vx doubles `V[x]` modulo 256 in place and VF receives bit 7, whatever `y` is; with `x
= 15` the flag remains under `flag_last` and twice the flag under `flag_first`. The clauses for register 15 rest on the
spec's decision D14. -/
def Obligations.ShiftLeftInPlace : Prop :=
  ∀ (x y : Nibble) (s : State) (a : Nat), a = (s.readV x).toNat →
    ∃ t, exec (.shl x y) s = .next t
      ∧ (x ≠ 15#4 → (t.readV x).toNat = (2 * a) % 256 ∧ (t.readV 15#4).toNat = a / 128)
      ∧ (s.cfg.vfWriteOrder = .flagLast → (t.readV 15#4).toNat = a / 128)
      ∧ (s.cfg.vfWriteOrder = .flagFirst → x = 15#4 → (t.readV 15#4).toNat = 2 * (a / 128))
      ∧ RegsKeptBut [x, 15#4] s t ∧ t.pc = s.pc + 2#16 ∧ OnlyChanges [.regs] s t

/-- 42_alu.md R133: RND Vx, kk gives the environment's byte masked, for every byte it may supply: the one lined up, or
the free value (log entry 2). VF is unaffected when it is not the destination, no bit outside the mask is set, and the
byte is taken, so that the next RND has another. That the byte is a free input is the spec's decision D23. -/
def Obligations.RandomByteIsMasked : Prop :=
  ∀ (x : Nibble) (kk r : Byte) (s : State),
    (s.rndBytes.head? = some r ∨ s.rndBytes = [] ∧ Config.freeRnd s.rndTaken = r) →
    ∃ t, exec (.rnd x kk) s = .next t
      ∧ (∀ b, (t.readV x).getLsbD b = (r.getLsbD b && kk.getLsbD b))
      ∧ RegsKeptBut [x] s t ∧ t.pc = s.pc + 2#16
      ∧ t.rndBytes = s.rndBytes.tail ∧ t.rndTaken = s.rndTaken + 1
      ∧ OnlyChanges [.regs, .rndInput] s t

/-! ## Control transfer -/

/-- 41_control_flow.md R105 to R108: the four compare-and-skips write nothing but `PC`. The semantics are marked by the
spec as general knowledge. -/
def Obligations.CompareAndSkips : Prop :=
  ∀ (x y : Nibble) (kk : Byte) (s : State),
    (∃ t, exec (.seImm x kk) s = .next t
      ∧ t.pc = (if s.readV x = kk then s.pc + 4#16 else s.pc + 2#16) ∧ OnlyChanges [] s t)
    ∧ (∃ t, exec (.sneImm x kk) s = .next t
      ∧ t.pc = (if s.readV x ≠ kk then s.pc + 4#16 else s.pc + 2#16) ∧ OnlyChanges [] s t)
    ∧ (∃ t, exec (.seReg x y) s = .next t
      ∧ t.pc = (if s.readV x = s.readV y then s.pc + 4#16 else s.pc + 2#16) ∧ OnlyChanges [] s t)
    ∧ (∃ t, exec (.sneReg x y) s = .next t
      ∧ t.pc = (if s.readV x ≠ s.readV y then s.pc + 4#16 else s.pc + 2#16) ∧ OnlyChanges [] s t)

/-- 41_control_flow.md R103, R109: JP and JP V0 write nothing but `PC`; the sum of JP V0 is not reduced to 12 bits and
its offset is always register 0. The 16-bit sum and register 0 are the spec's decision D18. -/
def Obligations.JumpsSetThePc : Prop :=
  ∀ (nnn : Addr12) (s : State),
    (∃ t, exec (.jp nnn) s = .next t ∧ t.pc.toNat = nnn.toNat ∧ OnlyChanges [] s t)
    ∧ ∃ t, exec (.jpV0 nnn) s = .next t ∧ t.pc.toNat = nnn.toNat + (s.readV 0#4).toNat ∧ OnlyChanges [] s t

/-- 41_control_flow.md R104, R100: CALL pushes the address of the CALL itself and jumps; with `SP = 15` it raises
StackOverflow(nnn) and writes nothing. The depth at which the call faults is the spec's decision D7. -/
def Obligations.CallPushesItsOwnAddress : Prop :=
  ∀ (nnn : Addr12) (s : State),
    (s.sp ≠ 15#4 → ∃ t, exec (.call nnn) s = .next t ∧ t.pc.toNat = nnn.toNat ∧ t.sp.toNat = s.sp.toNat + 1
      ∧ (∀ j : Fin 16, t.stack[j] = if j.val = s.sp.toNat then s.pc else s.stack[j])
      ∧ OnlyChanges [.stackPtr, .stack] s t)
    ∧ (s.sp = 15#4 → ∃ t, exec (.call nnn) s = .next t ∧ Faulted (.stackOverflow (nnn.setWidth 16)) s t)

/-- 41_control_flow.md R102, R100: RET resumes two bytes after the popped address and keeps the slot; with `SP = 0` it
raises StackUnderflow and writes nothing. The fault is the spec's decision D7. -/
def Obligations.ReturnResumesAfterTheCall : Prop :=
  ∀ (s : State),
    (∀ j : Fin 16, s.sp.toNat = j.val + 1 → ∃ t, exec .ret s = .next t ∧ t.pc = s.stack[j] + 2#16
      ∧ t.sp.toNat = j.val ∧ OnlyChanges [.stackPtr] s t)
    ∧ (s.sp = 0#4 → ∃ t, exec .ret s = .next t ∧ Faulted .stackUnderflow s t)

/-- 41_control_flow.md R102, the source's property: a RET that finds the stack as the CALL left it, whatever happened in
between, resumes at the instruction after the CALL with the stack pointer of before the call. -/
def Obligations.CallThenReturnRoundTrip : Prop :=
  ∀ (nnn : Addr12) (s t u : State), s.sp ≠ 15#4 → exec (.call nnn) s = .next t →
    u.sp = t.sp → u.stack = t.stack →
    ∃ w, exec .ret u = .next w ∧ w.pc = s.pc + 2#16 ∧ w.sp = s.sp ∧ OnlyChanges [.stackPtr] u w

/-- 41_control_flow.md R101, 30_encoding.md R67: SYS raises DecodeFailure with its own word and changes nothing else,
`PC` included. This is the spec's decision D4. -/
def Obligations.SysIsADecodeFailure : Prop :=
  ∀ (nnn : Addr12) (s : State), ∃ t, exec (.sys nnn) s = .next t ∧ Faulted (.decodeFailure (encode (.sys nnn))) s t
    ∧ (encode (.sys nnn)).toNat = nnn.toNat

/-! ## Index register and memory -/

/-- 43_index_memory.md R140, R141: LD I, nnn and ADD I, Vx, modulo 65536 and without a flag. The width is the spec's
decision D8, the missing flag its decision D27. -/
def Obligations.IndexLoadAndAdd : Prop :=
  (∀ (nnn : Addr12) (s : State), ∃ t, exec (.ldI nnn) s = .next t ∧ t.i.toNat = nnn.toNat
    ∧ t.pc = s.pc + 2#16 ∧ OnlyChanges [.index] s t)
  ∧ ∀ (x : Nibble) (s : State), ∃ t, exec (.addI x) s = .next t
    ∧ t.i.toNat = (s.i.toNat + (s.readV x).toNat) % 65536 ∧ t.pc = s.pc + 2#16 ∧ OnlyChanges [.index] s t

/-- 43_index_memory.md R142: LD F, Vx for both glyph bases; a digit above 15 raises GlyphIndexRange and leaves `I`. The
two bases are the spec's decision D10, the fault its decision D12. -/
def Obligations.GlyphLookup : Prop :=
  ∀ (x : Nibble) (s : State),
    ((s.readV x).toNat ≤ 15 → ∃ t, exec (.ldF x) s = .next t
      ∧ (s.cfg.fontBase = .at050 → t.i.toNat = 0x050 + 5 * (s.readV x).toNat)
      ∧ (s.cfg.fontBase = .at000 → t.i.toNat = 5 * (s.readV x).toNat)
      ∧ t.pc = s.pc + 2#16 ∧ OnlyChanges [.index] s t)
    ∧ ((s.readV x).toNat > 15 → ∃ t, exec (.ldF x) s = .next t ∧ Faulted (.glyphIndexRange (s.readV x)) s t)

/-- 43_index_memory.md R143: LD B, Vx stores the hundreds, tens and ones at `I`, `I + 1`, `I + 2` and leaves `I`; out
of range it raises MemRange with the lowest offending address and writes nothing. That `I` stays is the spec's decision
D17, the fault its decision D6. -/
def Obligations.BcdStoresThreeDigits : Prop :=
  ∀ (x : Nibble) (s : State),
    (s.i.toNat + 2 ≤ 0xFFF → ∃ t, exec (.ldB x) s = .next t
      ∧ (t.readByte s.i.toNat).toNat = (s.readV x).toNat / 100
      ∧ (t.readByte (s.i.toNat + 1)).toNat = (s.readV x).toNat / 10 % 10
      ∧ (t.readByte (s.i.toNat + 2)).toNat = (s.readV x).toNat % 10
      ∧ BytesKeptOutside s.i.toNat 3 s t ∧ t.pc = s.pc + 2#16 ∧ OnlyChanges [.memory] s t)
    ∧ (s.i.toNat + 2 > 0xFFF → ∃ t a, exec (.ldB x) s = .next t ∧ a.toNat = max s.i.toNat 0x1000
      ∧ Faulted (.memRange a) s t)

/-- 43_index_memory.md R144: LD [I], Vx stores `V[0]` to `V[x]` at `I` upward and leaves `I`; out of range it raises
MemRange with the lowest offending address and writes nothing. That `I` stays is the spec's decision D17, the fault its
decision D6. -/
def Obligations.BlockStoreWritesTheRegisters : Prop :=
  ∀ (x : Nibble) (s : State),
    (s.i.toNat + x.toNat ≤ 0xFFF → ∃ t, exec (.ldMemVx x) s = .next t
      ∧ (∀ j : Nibble, j.toNat ≤ x.toNat → t.readByte (s.i.toNat + j.toNat) = s.readV j)
      ∧ BytesKeptOutside s.i.toNat (x.toNat + 1) s t ∧ t.pc = s.pc + 2#16 ∧ OnlyChanges [.memory] s t)
    ∧ (s.i.toNat + x.toNat > 0xFFF → ∃ t a, exec (.ldMemVx x) s = .next t ∧ a.toNat = max s.i.toNat 0x1000
      ∧ Faulted (.memRange a) s t)

/-- 43_index_memory.md R145: LD Vx, [I] loads `V[0]` to `V[x]` from `I` upward, keeps the registers above `x` and
leaves `I`; out of range it raises MemRange with the lowest offending address and changes no register. That `I` stays
is the spec's decision D17, the fault its decision D6. -/
def Obligations.BlockLoadReadsTheRegisters : Prop :=
  ∀ (x : Nibble) (s : State),
    (s.i.toNat + x.toNat ≤ 0xFFF → ∃ t, exec (.ldVxMem x) s = .next t
      ∧ (∀ j : Nibble, j.toNat ≤ x.toNat → t.readV j = s.readByte (s.i.toNat + j.toNat))
      ∧ (∀ j : Nibble, x.toNat < j.toNat → t.readV j = s.readV j)
      ∧ t.pc = s.pc + 2#16 ∧ OnlyChanges [.regs] s t)
    ∧ (s.i.toNat + x.toNat > 0xFFF → ∃ t a, exec (.ldVxMem x) s = .next t ∧ a.toNat = max s.i.toNat 0x1000
      ∧ Faulted (.memRange a) s t)

/-- 20_memory.md R53: a block store over the two bytes of the instruction that follows it is what the very next fetch
decodes, with no intervening operation. The rule is the spec's derivation. -/
def Obligations.StoreIsSeenByTheNextFetch : Prop :=
  ∀ (x j : Nibble) (s : State), s.i.toNat + x.toNat ≤ 0xFFF → j.toNat + 1 ≤ x.toNat →
    s.pc.toNat + 2 = s.i.toNat + j.toNat →
    ∃ t, exec (.ldMemVx x) s = .next t ∧ t.pc = s.pc + 2#16
      ∧ t.opcodeAtPc = s.readV j ++ s.readV (j + 1#4)
      ∧ t.fetch = .ok [s.readV j, s.readV (j + 1#4)]

/-! ## Display -/

/-- 44_display.md R151: CLS zeroes the framebuffer and sets the redraw flag, whatever was lit. -/
def Obligations.ClearZeroesTheFramebuffer : Prop :=
  ∀ s : State, ∃ t, exec .cls s = .next t ∧ (∀ px py, t.fbOut px py = false) ∧ t.redraw = true
    ∧ t.pc = s.pc + 2#16 ∧ OnlyChanges [.frameBuffer, .redraw] s t

/-- 44_display.md R152, R150: DRW in range XORs sprite bit `bit` of row `row`, the most significant bit first, into the
pixel at `(V[x] + bit) mod 64`, `(V[y] + row) mod 32`, keeps every other pixel, and sets VF to 1 exactly when a pixel
that was set met a set bit. Coordinates are latched, so `x = 15` or `y = 15` uses the old VF; `n = 0` draws nothing,
whatever `I` is, and still clears VF and sets the redraw flag. The bit order and the latched coordinates are the spec's
decision D15, the range its decision D6. -/
def Obligations.DrawXorsTheSprite : Prop :=
  ∀ (x y n : Nibble) (s : State), (n = 0#4 ∨ s.i.toNat + (n.toNat - 1) ≤ 0xFFF) →
    ∃ t, exec (.drw x y n) s = .next t
      ∧ (∀ row bit, row < n.toNat → bit < 8 → ∀ px py,
          px.val = ((s.readV x).toNat + bit) % 64 → py.val = ((s.readV y).toNat + row) % 32 →
          t.fbOut px py = (s.fbOut px py ^^ (s.readByte (s.i.toNat + row)).getLsbD (7 - bit)))
      ∧ (∀ px py, (∀ row bit, row < n.toNat → bit < 8 →
            ¬ (px.val = ((s.readV x).toNat + bit) % 64 ∧ py.val = ((s.readV y).toNat + row) % 32)) →
          t.fbOut px py = s.fbOut px py)
      ∧ ((∃ row bit px py, row < n.toNat ∧ bit < 8 ∧ px.val = ((s.readV x).toNat + bit) % 64
            ∧ py.val = ((s.readV y).toNat + row) % 32 ∧ s.fbOut px py = true
            ∧ (s.readByte (s.i.toNat + row)).getLsbD (7 - bit) = true) → t.readV 15#4 = 1#8)
      ∧ ((¬ ∃ row bit px py, row < n.toNat ∧ bit < 8 ∧ px.val = ((s.readV x).toNat + bit) % 64
            ∧ py.val = ((s.readV y).toNat + row) % 32 ∧ s.fbOut px py = true
            ∧ (s.readByte (s.i.toNat + row)).getLsbD (7 - bit) = true) → t.readV 15#4 = 0#8)
      ∧ RegsKeptBut [15#4] s t ∧ t.redraw = true ∧ t.pc = s.pc + 2#16
      ∧ OnlyChanges [.regs, .frameBuffer, .redraw] s t

/-- 44_display.md R152, 43_index_memory.md R146: DRW with a row address above 0xFFF raises MemRange with the lowest
offending address before VF or any pixel is written. The fault is the spec's decision D6. -/
def Obligations.DrawOutOfRangeRaisesMemRange : Prop :=
  ∀ (x y n : Nibble) (s : State), n ≠ 0#4 → s.i.toNat + (n.toNat - 1) > 0xFFF →
    ∃ t a, exec (.drw x y n) s = .next t ∧ a.toNat = max s.i.toNat 0x1000 ∧ Faulted (.memRange a) s t

/-- 44_display.md R153: drawing the same sprite twice at the same place restores the framebuffer, and the second VF is
1 exactly when a set sprite bit covered a pixel that was 0 before the first draw. The rule is the spec's derivation
from R152. -/
def Obligations.DrawingTwiceRestoresTheFramebuffer : Prop :=
  ∀ (x y n : Nibble) (s t u : State), x ≠ 15#4 → y ≠ 15#4 → (n = 0#4 ∨ s.i.toNat + (n.toNat - 1) ≤ 0xFFF) →
    exec (.drw x y n) s = .next t → exec (.drw x y n) t = .next u →
    (∀ px py, u.fbOut px py = s.fbOut px py)
    ∧ (u.readV 15#4 = 1#8 ↔ ∃ row bit px py, row < n.toNat ∧ bit < 8 ∧ px.val = ((s.readV x).toNat + bit) % 64
        ∧ py.val = ((s.readV y).toNat + row) % 32 ∧ s.fbOut px py = false
        ∧ (s.readByte (s.i.toNat + row)).getLsbD (7 - bit) = true)

/-! ## Keypad and timers -/

/-- 45_keypad_timers.md R160, R161: SKP and SKNP by the snapshot, writing nothing but `PC`; an index above 15 raises
KeyIndexRange. The fault is the spec's decision D13. -/
def Obligations.KeySkips : Prop :=
  ∀ (x : Nibble) (s : State),
    ((s.readV x).toNat ≤ 15 →
      (∃ t, exec (.skp x) s = .next t
        ∧ t.pc = (if s.keys.getLsbD (s.readV x).toNat = true then s.pc + 4#16 else s.pc + 2#16) ∧ OnlyChanges [] s t)
      ∧ ∃ t, exec (.sknp x) s = .next t
        ∧ t.pc = (if s.keys.getLsbD (s.readV x).toNat = false then s.pc + 4#16 else s.pc + 2#16) ∧ OnlyChanges [] s t)
    ∧ ((s.readV x).toNat > 15 →
      (∃ t, exec (.skp x) s = .next t ∧ Faulted (.keyIndexRange (s.readV x)) s t)
      ∧ ∃ t, exec (.sknp x) s = .next t ∧ Faulted (.keyIndexRange (s.readV x)) s t)

/-- 45_keypad_timers.md R162, R164, R165: the moves to and from the timers. The opcodes are marked by the spec as
general knowledge. -/
def Obligations.TimerMoves : Prop :=
  ∀ (x : Nibble) (s : State),
    (∃ t, exec (.ldVxDt x) s = .next t ∧ t.readV x = s.dt ∧ RegsKeptBut [x] s t ∧ t.pc = s.pc + 2#16
      ∧ OnlyChanges [.regs] s t)
    ∧ (∃ t, exec (.ldDtVx x) s = .next t ∧ t.dt = s.readV x ∧ t.pc = s.pc + 2#16 ∧ OnlyChanges [.delay] s t)
    ∧ ∃ t, exec (.ldStVx x) s = .next t ∧ t.st = s.readV x ∧ t.pc = s.pc + 2#16 ∧ OnlyChanges [.sound] s t

/-- 45_keypad_timers.md R163: LD Vx, K arms the wait and advances `PC`, whatever keys are down, and writes no register.
That `PC` advances in the arming tick is the spec's decision D19. -/
def Obligations.KeyWaitIsArmed : Prop :=
  ∀ (x : Nibble) (s : State), ∃ t, exec (.ldVxK x) s = .next t ∧ t.wait = .waitingForKey x
    ∧ t.pc = s.pc + 2#16 ∧ OnlyChanges [.wait] s t

/-! ## Rules about the whole machine -/

/-- 10_state.md R23, R24, 40_tick_cycle.md R82: only CLS and DRW change the framebuffer, and after a tick of a machine
that is not halted the redraw flag is set exactly when the tick executed one of them without a fault. That a draw
without a change sets the flag is the spec's choice C3 (90_conflicts.md). -/
def Obligations.OnlyDisplayInstructionsDraw : Prop :=
  ∀ (s t : State) (k : Keys), s.tick k = .next t →
    (t.fb ≠ s.fb → s.halted = false ∧ s.wait = .running ∧ (s.executes .cls ∨ ∃ x y n, s.executes (.drw x y n)))
    ∧ (s.halted = false → (t.redraw = true ↔ s.wait = .running ∧ (s.executes .cls
        ∨ ∃ x y n, s.executes (.drw x y n) ∧ (n = 0#4 ∨ s.i.toNat + (n.toNat - 1) ≤ 0xFFF))))

/-- 10_state.md R26, 20_memory.md R45: only LD B and LD [I], Vx change a byte of memory, and only within their own
bytes. -/
def Obligations.OnlyStoresChangeMemory : Prop :=
  ∀ (s t : State) (k : Keys) (a : Nat), s.tick k = .next t → t.readByte a ≠ s.readByte a →
    s.halted = false ∧ s.wait = .running ∧ s.i.toNat ≤ a
    ∧ ((∃ x, s.executes (.ldB x) ∧ a ≤ s.i.toNat + 2) ∨ ∃ x, s.executes (.ldMemVx x) ∧ a ≤ s.i.toNat + x.toNat)

/-- 10_state.md R12, R13: a tick changes VF only by an instruction that writes it as a flag, by one whose destination
register it is, by a block load of all sixteen registers, or by a key wait whose target it is. The instructions left
out of the list are the spec's decisions D16, D27, D28. -/
def Obligations.OnlyTheListedInstructionsChangeVf : Prop :=
  ∀ (s t : State) (k : Keys), s.tick k = .next t → t.readV 15#4 ≠ s.readV 15#4 →
    s.wait = .waitingForKey 15#4
    ∨ ∃ i, s.executes i ∧ match i with
      | .addReg _ _ | .sub _ _ | .shr _ _ | .subn _ _ | .shl _ _ | .drw _ _ _ => True
      | .ldImm x _ | .addImm x _ | .ldReg x _ | .orReg x _ | .andReg x _ | .xorReg x _ | .rnd x _ | .ldVxDt x
      | .ldVxMem x => x = 15#4
      | _ => False

/-- 10_state.md R16 to R20, R22: which instructions change the index register and the call stack, raise the timers and
start a wait. -/
def Obligations.OnlyTheListedInstructionsChangeTheSpecialRegisters : Prop :=
  ∀ (s t : State) (k : Keys), s.tick k = .next t →
    (t.i ≠ s.i → ∃ x nnn, s.executes (.ldI nnn) ∨ s.executes (.addI x) ∨ s.executes (.ldF x))
    ∧ (t.sp ≠ s.sp → ∃ nnn, s.executes (.call nnn) ∨ s.executes .ret)
    ∧ (t.stack ≠ s.stack → ∃ nnn, s.executes (.call nnn))
    ∧ (t.dt.toNat > s.dt.toNat → ∃ x, s.executes (.ldDtVx x))
    ∧ (t.st.toNat > s.st.toNat → ∃ x, s.executes (.ldStVx x))
    ∧ (s.wait = .running → t.wait ≠ .running → ∃ x, s.executes (.ldVxK x) ∧ t.wait = .waitingForKey x)

/-- 60_exceptions.md R179: in a tick that executes an instruction other than SKP and SKNP, the keys reach nothing but
the snapshot: two such ticks that differ in the keys give states that differ in the snapshot only. -/
def Obligations.KeysReachOnlySkipsAndTheWait : Prop :=
  ∀ (s : State) (k l : Keys), s.wait = .running → (¬ ∃ x, s.executes (.skp x) ∨ s.executes (.sknp x)) →
    ∃ t, s.tick k = .next t ∧ s.tick l = .next (if s.halted then t else { t with keys := l })

/-- 20_memory.md R42, R50, R40: after a one-byte write in range the byte reads back and every other byte is as before;
a write or read above 0xFFF raises MemRange with its address. The fault is the spec's decision D6, the missing
protection its decision D30. -/
def Obligations.MemoryReadsBackTheLatestWrite : Prop :=
  ∀ (s : State) (a : Word) (b : Byte),
    (a.toNat ≤ 0xFFF → ∃ t, s.memWrite a [b] = .ok t ∧ t.memRead a 1 = .ok [b]
      ∧ (∀ c : Word, c ≠ a → t.memRead c 1 = s.memRead c 1) ∧ OnlyChanges [.memory] s t ∧ t.pc = s.pc)
    ∧ (a.toNat > 0xFFF → s.memWrite a [b] = .error (.memRange a) ∧ s.memRead a 1 = .error (.memRange a))

/-! ## Reset, load, invariant -/

/-- 10_state.md R28, 70_reset_and_hazards.md R200, 60_exceptions.md R187: what reset leaves, for every configuration
and from every state. The values of the timers, the keys, the wait, the framebuffer, the redraw flag and the stack are
the spec's decision D20, the glyphs and their base D10 and D11 (log entries 3 and 5). That reset keeps the
configuration is the model's own choice (log entry 11, DESIGN CHOICE). -/
def Obligations.ResetLeavesTheStatedValues : Prop :=
  ∀ s t : State, t = s.hostReset →
    (∀ r, t.readV r = 0#8) ∧ t.i = 0#16 ∧ t.pc = 0#16 ∧ t.sp = 0#4 ∧ (∀ j : Fin 16, t.stack[j] = 0#16)
    ∧ t.dt = 0#8 ∧ t.st = 0#8 ∧ t.keys = 0#16 ∧ t.wait = .running ∧ (∀ px py, t.fbOut px py = false)
    ∧ t.redraw = false ∧ t.fault = { cause := .noFault, info := 0#16, pc := 0#16 }
    ∧ (∀ j : Fin 80, t.readByte ((fontAddr s.cfg.fontBase).toNat + j.val) = s.cfg.glyphs[j])
    ∧ (∀ a, a < (fontAddr s.cfg.fontBase).toNat ∨ (fontAddr s.cfg.fontBase).toNat + 80 ≤ a → t.readByte a = 0#8)
    ∧ t.cfg = s.cfg

/-- 70_reset_and_hazards.md R202, 60_exceptions.md R188: load writes an image of at most 3584 bytes at 0x200 upward,
sets `PC` to 0x200 and changes nothing else; a longer image is refused. The refusal and what load keeps are the spec's
decision D21 (log entry 9). -/
def Obligations.LoadPlacesTheImage : Prop :=
  ∀ (s : State) (image : List Byte),
    (image.length ≤ 3584 → ∃ t, s.load image = .next t ∧ t.pc = 0x200#16
      ∧ (∀ j, ∀ h : j < image.length, t.readByte (0x200 + j) = image[j])
      ∧ BytesKeptOutside 0x200 image.length s t ∧ OnlyChanges [.memory] s t)
    ∧ (image.length > 3584 → s.load image = .refused .imageTooLong)

/-- The invariant holds at reset and in the launch state of every image (70_reset_and_hazards.md R204). The invariant
is the model's. -/
def Obligations.InvariantHoldsAtReset : Prop :=
  State.reset.Inv ∧ ∀ (cfg : Config) (image : List Byte) (t : State), State.launch cfg image = .next t → t.Inv

/-- Every step, and every tick whatever the keys, keeps the invariant: the memory in its canonical form and below
0x1000, `PC` at most 0x10FE (10_state.md R15), every stack slot an address a CALL can stand at, the fault record 0/0/0
while no fault is recorded and holding the `PC` of now afterwards (60_exceptions.md R170), and, after a decode failure,
the failed word still at `PC` (60_exceptions.md R172, R173). The invariant is the model's. -/
def Obligations.EveryStepKeepsTheInvariant : Prop :=
  (∀ (s t : State) (k : Keys), s.Inv → s.tick k = .next t → t.Inv)
  ∧ ∀ s t : State, s.Inv → step s = .next t → t.Inv
end

