-- ==== Sys2Proof/Laws/Decode.lean ====
section
/-!
SUPPORT. The fields of an encoded word are the fields it was made of, and a word is made of its fields.
-/

namespace Sys2Proof

/-- A field of a concatenation: the bits of the word between two positions, by number. -/
theorem extract_eq_of_toNat {m : Nat} (w : Word) (lo : Nat) (v : BitVec m)
    (h : w.toNat / 2 ^ lo % 2 ^ m = v.toNat) : w.extractLsb' lo m = v := by
  apply BitVec.eq_of_toNat_eq
  rw [BitVec.extractLsb'_toNat, Nat.shiftRight_eq_div_pow]
  exact h

theorem toNat_encodeA (c : Nibble) (nnn : Addr12) : (encodeA c nnn).toNat = c.toNat * 4096 + nnn.toNat := by
  unfold encodeA
  rw [BitVec.toNat_append, ← Nat.shiftLeft_add_eq_or_of_lt nnn.isLt, Nat.shiftLeft_eq]

theorem toNat_encodeXK (c x : Nibble) (kk : Byte) :
    (encodeXK c x kk).toNat = c.toNat * 4096 + x.toNat * 256 + kk.toNat := by
  unfold encodeXK
  rw [BitVec.toNat_append, BitVec.toNat_append, ← Nat.shiftLeft_add_eq_or_of_lt kk.isLt,
    ← Nat.shiftLeft_add_eq_or_of_lt x.isLt, Nat.shiftLeft_eq, Nat.shiftLeft_eq]
  omega

theorem toNat_encodeXY (c x y s : Nibble) :
    (encodeXY c x y s).toNat = c.toNat * 4096 + x.toNat * 256 + y.toNat * 16 + s.toNat := by
  unfold encodeXY
  rw [BitVec.toNat_append, BitVec.toNat_append, BitVec.toNat_append, ← Nat.shiftLeft_add_eq_or_of_lt s.isLt,
    ← Nat.shiftLeft_add_eq_or_of_lt y.isLt, ← Nat.shiftLeft_add_eq_or_of_lt x.isLt, Nat.shiftLeft_eq,
    Nat.shiftLeft_eq, Nat.shiftLeft_eq]
  omega

/-! ## The fields of an encoded word -/

@[simp] theorem fieldClass_encodeA (c : Nibble) (nnn : Addr12) : fieldClass (encodeA c nnn) = c :=
  extract_eq_of_toNat _ _ _ (by rw [toNat_encodeA]; omega)
@[simp] theorem fieldNNN_encodeA (c : Nibble) (nnn : Addr12) : fieldNNN (encodeA c nnn) = nnn :=
  extract_eq_of_toNat _ _ _ (by rw [toNat_encodeA]; omega)
@[simp] theorem fieldClass_encodeXK (c x : Nibble) (kk : Byte) : fieldClass (encodeXK c x kk) = c :=
  extract_eq_of_toNat _ _ _ (by rw [toNat_encodeXK]; omega)
@[simp] theorem fieldX_encodeXK (c x : Nibble) (kk : Byte) : fieldX (encodeXK c x kk) = x :=
  extract_eq_of_toNat _ _ _ (by rw [toNat_encodeXK]; omega)
@[simp] theorem fieldKK_encodeXK (c x : Nibble) (kk : Byte) : fieldKK (encodeXK c x kk) = kk :=
  extract_eq_of_toNat _ _ _ (by rw [toNat_encodeXK]; omega)
@[simp] theorem fieldClass_encodeXY (c x y s : Nibble) : fieldClass (encodeXY c x y s) = c :=
  extract_eq_of_toNat _ _ _ (by rw [toNat_encodeXY]; omega)
@[simp] theorem fieldX_encodeXY (c x y s : Nibble) : fieldX (encodeXY c x y s) = x :=
  extract_eq_of_toNat _ _ _ (by rw [toNat_encodeXY]; omega)
@[simp] theorem fieldY_encodeXY (c x y s : Nibble) : fieldY (encodeXY c x y s) = y :=
  extract_eq_of_toNat _ _ _ (by rw [toNat_encodeXY]; omega)
@[simp] theorem fieldN_encodeXY (c x y s : Nibble) : fieldN (encodeXY c x y s) = s :=
  extract_eq_of_toNat _ _ _ (by rw [toNat_encodeXY]; omega)

/-! ## A word is made of its fields -/

theorem fieldClass_toNat (w : Word) : (fieldClass w).toNat = w.toNat / 4096 := by
  have := w.isLt
  simp only [fieldClass, BitVec.extractLsb'_toNat, Nat.shiftRight_eq_div_pow]; omega
theorem fieldX_toNat (w : Word) : (fieldX w).toNat = w.toNat / 256 % 16 := by
  simp only [fieldX, BitVec.extractLsb'_toNat, Nat.shiftRight_eq_div_pow]
theorem fieldY_toNat (w : Word) : (fieldY w).toNat = w.toNat / 16 % 16 := by
  simp only [fieldY, BitVec.extractLsb'_toNat, Nat.shiftRight_eq_div_pow]
theorem fieldN_toNat (w : Word) : (fieldN w).toNat = w.toNat % 16 := by
  simp only [fieldN, BitVec.extractLsb'_toNat, Nat.shiftRight_eq_div_pow]; omega
theorem fieldKK_toNat (w : Word) : (fieldKK w).toNat = w.toNat % 256 := by
  simp only [fieldKK, BitVec.extractLsb'_toNat, Nat.shiftRight_eq_div_pow]; omega
theorem fieldNNN_toNat (w : Word) : (fieldNNN w).toNat = w.toNat % 4096 := by
  simp only [fieldNNN, BitVec.extractLsb'_toNat, Nat.shiftRight_eq_div_pow]; omega

theorem encodeA_fields (w : Word) : encodeA (fieldClass w) (fieldNNN w) = w := by
  apply BitVec.eq_of_toNat_eq
  rw [toNat_encodeA, fieldClass_toNat, fieldNNN_toNat]; omega
theorem encodeXK_fields (w : Word) : encodeXK (fieldClass w) (fieldX w) (fieldKK w) = w := by
  apply BitVec.eq_of_toNat_eq
  have := w.isLt
  rw [toNat_encodeXK, fieldClass_toNat, fieldX_toNat, fieldKK_toNat]; omega
theorem encodeXY_fields (w : Word) : encodeXY (fieldClass w) (fieldX w) (fieldY w) (fieldN w) = w := by
  apply BitVec.eq_of_toNat_eq
  have := w.isLt
  rw [toNat_encodeXY, fieldClass_toNat, fieldX_toNat, fieldY_toNat, fieldN_toNat]; omega

/-- The low byte is the fields `y` and `n`: `kk = y ‖ n` (30_encoding.md R61). -/
theorem fieldKK_eq (w : Word) : fieldKK w = fieldY w ++ fieldN w := by
  apply BitVec.eq_of_toNat_eq
  rw [BitVec.toNat_append, ← Nat.shiftLeft_add_eq_or_of_lt (fieldN w).isLt, Nat.shiftLeft_eq, fieldKK_toNat,
    fieldY_toNat, fieldN_toNat]
  omega

/-! ## Masking a word, field by field -/

theorem extract_and {n : Nat} (w m : Word) (lo : Nat) :
    (w &&& m).extractLsb' lo n = w.extractLsb' lo n &&& m.extractLsb' lo n := by
  apply BitVec.eq_of_getLsbD_eq
  intro i hi
  simp [hi]

theorem fieldClass_and (w m : Word) : fieldClass (w &&& m) = fieldClass w &&& fieldClass m := extract_and w m 12
theorem fieldX_and (w m : Word) : fieldX (w &&& m) = fieldX w &&& fieldX m := extract_and w m 8
theorem fieldY_and (w m : Word) : fieldY (w &&& m) = fieldY w &&& fieldY m := extract_and w m 4
theorem fieldN_and (w m : Word) : fieldN (w &&& m) = fieldN w &&& fieldN m := extract_and w m 0
theorem fieldKK_and (w m : Word) : fieldKK (w &&& m) = fieldKK w &&& fieldKK m := extract_and w m 0
theorem fieldNNN_and (w m : Word) : fieldNNN (w &&& m) = fieldNNN w &&& fieldNNN m := extract_and w m 0

theorem encodeA_and (c d : Nibble) (n k : Addr12) : encodeA c n &&& encodeA d k = encodeA (c &&& d) (n &&& k) := by
  rw [← encodeA_fields (encodeA c n &&& encodeA d k), fieldClass_and, fieldNNN_and]; simp
theorem encodeXK_and (c d x q : Nibble) (n k : Byte) :
    encodeXK c x n &&& encodeXK d q k = encodeXK (c &&& d) (x &&& q) (n &&& k) := by
  rw [← encodeXK_fields (encodeXK c x n &&& encodeXK d q k), fieldClass_and, fieldX_and, fieldKK_and]; simp
theorem encodeXY_and (c d x q y r n k : Nibble) :
    encodeXY c x y n &&& encodeXY d q r k = encodeXY (c &&& d) (x &&& q) (y &&& r) (n &&& k) := by
  rw [← encodeXY_fields (encodeXY c x y n &&& encodeXY d q r k), fieldClass_and, fieldX_and, fieldY_and, fieldN_and]
  simp

/-- The mask of format A keeps the class. -/
theorem encodeA_class (c : Nibble) (n : Addr12) : encodeA c n &&& 0xF000#16 = encodeA c 0#12 := by
  rw [show (0xF000#16) = encodeA 15#4 0#12 by decide, encodeA_and]
  congr 1 <;> first | exact BitVec.and_allOnes | exact BitVec.and_zero
/-- The class mask on format XK. -/
theorem encodeXK_class (c x : Nibble) (kk : Byte) : encodeXK c x kk &&& 0xF000#16 = encodeXK c 0#4 0#8 := by
  rw [show (0xF000#16) = encodeXK 15#4 0#4 0#8 by decide, encodeXK_and]
  congr 1 <;> first | exact BitVec.and_allOnes | exact BitVec.and_zero
/-- The mask of class and low byte on format XK. -/
theorem encodeXK_low (c x : Nibble) (kk : Byte) : encodeXK c x kk &&& 0xF0FF#16 = encodeXK c 0#4 kk := by
  rw [show (0xF0FF#16) = encodeXK 15#4 0#4 255#8 by decide, encodeXK_and]
  congr 1 <;> first | exact BitVec.and_allOnes | exact BitVec.and_zero
/-- The class mask on format XYN. -/
theorem encodeXY_class (c x y n : Nibble) : encodeXY c x y n &&& 0xF000#16 = encodeXY c 0#4 0#4 0#4 := by
  rw [show (0xF000#16) = encodeXY 15#4 0#4 0#4 0#4 by decide, encodeXY_and]
  congr 1 <;> first | exact BitVec.and_allOnes | exact BitVec.and_zero
/-- The mask of class and low nibble on format XY. -/
theorem encodeXY_low (c x y n : Nibble) : encodeXY c x y n &&& 0xF00F#16 = encodeXY c 0#4 0#4 n := by
  rw [show (0xF00F#16) = encodeXY 15#4 0#4 0#4 15#4 by decide, encodeXY_and]
  congr 1 <;> first | exact BitVec.and_allOnes | exact BitVec.and_zero

/-! ## The decoder, class by class -/

/-- A nibble has one of sixteen values. -/
theorem nibble_cases (c : Nibble) : c = 0x0#4 ∨ c = 0x1#4 ∨ c = 0x2#4 ∨ c = 0x3#4 ∨ c = 0x4#4 ∨ c = 0x5#4 ∨ c = 0x6#4
    ∨ c = 0x7#4 ∨ c = 0x8#4 ∨ c = 0x9#4 ∨ c = 0xA#4 ∨ c = 0xB#4 ∨ c = 0xC#4 ∨ c = 0xD#4 ∨ c = 0xE#4 ∨ c = 0xF#4 := by
  revert c; decide

theorem decodeWord_class0 (w : Word) (h : fieldClass w = 0x0#4) :
    decodeWord w = .ok (decodeClass0 w) := by
  simp [decodeWord, h]
theorem decodeWord_class1 (w : Word) (h : fieldClass w = 0x1#4) :
    decodeWord w = .ok (.jp (fieldNNN w)) := by
  simp [decodeWord, h]
theorem decodeWord_class2 (w : Word) (h : fieldClass w = 0x2#4) :
    decodeWord w = .ok (.call (fieldNNN w)) := by
  simp [decodeWord, h]
theorem decodeWord_class3 (w : Word) (h : fieldClass w = 0x3#4) :
    decodeWord w = .ok (.seImm (fieldX w) (fieldKK w)) := by
  simp [decodeWord, h]
theorem decodeWord_class4 (w : Word) (h : fieldClass w = 0x4#4) :
    decodeWord w = .ok (.sneImm (fieldX w) (fieldKK w)) := by
  simp [decodeWord, h]
theorem decodeWord_class5 (w : Word) (h : fieldClass w = 0x5#4) :
    decodeWord w = if fieldN w = 0x0#4 then .ok (.seReg (fieldX w) (fieldY w)) else .error .unknownClass5 := by
  simp [decodeWord, h]
theorem decodeWord_class6 (w : Word) (h : fieldClass w = 0x6#4) :
    decodeWord w = .ok (.ldImm (fieldX w) (fieldKK w)) := by
  simp [decodeWord, h]
theorem decodeWord_class7 (w : Word) (h : fieldClass w = 0x7#4) :
    decodeWord w = .ok (.addImm (fieldX w) (fieldKK w)) := by
  simp [decodeWord, h]
theorem decodeWord_class8 (w : Word) (h : fieldClass w = 0x8#4) :
    decodeWord w = decodeClass8 w := by
  simp [decodeWord, h]
theorem decodeWord_class9 (w : Word) (h : fieldClass w = 0x9#4) :
    decodeWord w = if fieldN w = 0x0#4 then .ok (.sneReg (fieldX w) (fieldY w)) else .error .unknownClass9 := by
  simp [decodeWord, h]
theorem decodeWord_classA (w : Word) (h : fieldClass w = 0xA#4) :
    decodeWord w = .ok (.ldI (fieldNNN w)) := by
  simp [decodeWord, h]
theorem decodeWord_classB (w : Word) (h : fieldClass w = 0xB#4) :
    decodeWord w = .ok (.jpV0 (fieldNNN w)) := by
  simp [decodeWord, h]
theorem decodeWord_classC (w : Word) (h : fieldClass w = 0xC#4) :
    decodeWord w = .ok (.rnd (fieldX w) (fieldKK w)) := by
  simp [decodeWord, h]
theorem decodeWord_classD (w : Word) (h : fieldClass w = 0xD#4) :
    decodeWord w = .ok (.drw (fieldX w) (fieldY w) (fieldN w)) := by
  simp [decodeWord, h]
theorem decodeWord_classE (w : Word) (h : fieldClass w = 0xE#4) :
    decodeWord w = decodeClassE w := by
  simp [decodeWord, h]
theorem decodeWord_classF (w : Word) (h : fieldClass w = 0xF#4) :
    decodeWord w = decodeClassF w := by
  simp [decodeWord, h]

/-! ## Bytes -/

@[simp] theorem wordOfBytes_bytes (w : Word) : wordOfBytes (w.extractLsb' 8 8) (w.extractLsb' 0 8) = w := by
  apply BitVec.eq_of_toNat_eq
  have := w.isLt
  unfold wordOfBytes
  rw [BitVec.toNat_append, ← Nat.shiftLeft_add_eq_or_of_lt (BitVec.isLt _), Nat.shiftLeft_eq,
    BitVec.extractLsb'_toNat, BitVec.extractLsb'_toNat, Nat.shiftRight_eq_div_pow, Nat.shiftRight_eq_div_pow]
  omega

/-- Decoding the bytes of a word is decoding the word. -/
theorem decode_bytesOfWord (w : Word) (rest : List Byte) :
    decode (bytesOfWord w ++ rest) = (decodeWord w).map fun i => (i, rest) := by
  simp [bytesOfWord, decode]

/-- Decoding two bytes is decoding their word. -/
theorem decode_two (hi lo : Byte) (rest : List Byte) :
    decode (hi :: lo :: rest) = (decodeWord (wordOfBytes hi lo)).map fun i => (i, rest) := rfl

end Sys2Proof
end

