-- ==== Sys2Proof/Laws/State.lean ====
section
/-!
SUPPORT. Beside State: for each update of the state, what it does to each field, so that no later proof unfolds a record
update.
-/

namespace Sys2Proof.Machine

variable (s : State)

/-! ## `V[r] <- b` -/

@[simp] theorem writeV_v (r : Nibble) (b : Byte) : (s.writeV r b).v = s.v.set r.toNat b := rfl
@[simp] theorem writeV_i (r : Nibble) (b : Byte) : (s.writeV r b).i = s.i := rfl
@[simp] theorem writeV_pc (r : Nibble) (b : Byte) : (s.writeV r b).pc = s.pc := rfl
@[simp] theorem writeV_sp (r : Nibble) (b : Byte) : (s.writeV r b).sp = s.sp := rfl
@[simp] theorem writeV_stack (r : Nibble) (b : Byte) : (s.writeV r b).stack = s.stack := rfl
@[simp] theorem writeV_dt (r : Nibble) (b : Byte) : (s.writeV r b).dt = s.dt := rfl
@[simp] theorem writeV_st (r : Nibble) (b : Byte) : (s.writeV r b).st = s.st := rfl
@[simp] theorem writeV_keys (r : Nibble) (b : Byte) : (s.writeV r b).keys = s.keys := rfl
@[simp] theorem writeV_wait (r : Nibble) (b : Byte) : (s.writeV r b).wait = s.wait := rfl
@[simp] theorem writeV_fb (r : Nibble) (b : Byte) : (s.writeV r b).fb = s.fb := rfl
@[simp] theorem writeV_redraw (r : Nibble) (b : Byte) : (s.writeV r b).redraw = s.redraw := rfl
@[simp] theorem writeV_mem (r : Nibble) (b : Byte) : (s.writeV r b).mem = s.mem := rfl
@[simp] theorem writeV_fault (r : Nibble) (b : Byte) : (s.writeV r b).fault = s.fault := rfl
@[simp] theorem writeV_cfg (r : Nibble) (b : Byte) : (s.writeV r b).cfg = s.cfg := rfl
@[simp] theorem writeV_keyArgs (r : Nibble) (b : Byte) : (s.writeV r b).keyArgs = s.keyArgs := rfl
@[simp] theorem writeV_keyArgsTaken (r : Nibble) (b : Byte) : (s.writeV r b).keyArgsTaken = s.keyArgsTaken := rfl
@[simp] theorem writeV_rndBytes (r : Nibble) (b : Byte) : (s.writeV r b).rndBytes = s.rndBytes := rfl
@[simp] theorem writeV_rndTaken (r : Nibble) (b : Byte) : (s.writeV r b).rndTaken = s.rndTaken := rfl

/-! ## `MEM[a] <- b` -/

@[simp] theorem writeByte_v (a : Nat) (b : Byte) : (s.writeByte a b).v = s.v := rfl
@[simp] theorem writeByte_i (a : Nat) (b : Byte) : (s.writeByte a b).i = s.i := rfl
@[simp] theorem writeByte_pc (a : Nat) (b : Byte) : (s.writeByte a b).pc = s.pc := rfl
@[simp] theorem writeByte_sp (a : Nat) (b : Byte) : (s.writeByte a b).sp = s.sp := rfl
@[simp] theorem writeByte_stack (a : Nat) (b : Byte) : (s.writeByte a b).stack = s.stack := rfl
@[simp] theorem writeByte_dt (a : Nat) (b : Byte) : (s.writeByte a b).dt = s.dt := rfl
@[simp] theorem writeByte_st (a : Nat) (b : Byte) : (s.writeByte a b).st = s.st := rfl
@[simp] theorem writeByte_keys (a : Nat) (b : Byte) : (s.writeByte a b).keys = s.keys := rfl
@[simp] theorem writeByte_wait (a : Nat) (b : Byte) : (s.writeByte a b).wait = s.wait := rfl
@[simp] theorem writeByte_fb (a : Nat) (b : Byte) : (s.writeByte a b).fb = s.fb := rfl
@[simp] theorem writeByte_redraw (a : Nat) (b : Byte) : (s.writeByte a b).redraw = s.redraw := rfl
@[simp] theorem writeByte_mem (a : Nat) (b : Byte) : (s.writeByte a b).mem = Memory.set s.cfg s.mem a b := rfl
@[simp] theorem writeByte_fault (a : Nat) (b : Byte) : (s.writeByte a b).fault = s.fault := rfl
@[simp] theorem writeByte_cfg (a : Nat) (b : Byte) : (s.writeByte a b).cfg = s.cfg := rfl
@[simp] theorem writeByte_keyArgs (a : Nat) (b : Byte) : (s.writeByte a b).keyArgs = s.keyArgs := rfl
@[simp] theorem writeByte_keyArgsTaken (a : Nat) (b : Byte) : (s.writeByte a b).keyArgsTaken = s.keyArgsTaken := rfl
@[simp] theorem writeByte_rndBytes (a : Nat) (b : Byte) : (s.writeByte a b).rndBytes = s.rndBytes := rfl
@[simp] theorem writeByte_rndTaken (a : Nat) (b : Byte) : (s.writeByte a b).rndTaken = s.rndTaken := rfl

/-! ## the PC effect -/

@[simp] theorem applyPc_v (e : PcEffect) : (s.applyPc e).v = s.v := rfl
@[simp] theorem applyPc_i (e : PcEffect) : (s.applyPc e).i = s.i := rfl
@[simp] theorem applyPc_pc (e : PcEffect) : (s.applyPc e).pc = e.target s.pc := rfl
@[simp] theorem applyPc_sp (e : PcEffect) : (s.applyPc e).sp = s.sp := rfl
@[simp] theorem applyPc_stack (e : PcEffect) : (s.applyPc e).stack = s.stack := rfl
@[simp] theorem applyPc_dt (e : PcEffect) : (s.applyPc e).dt = s.dt := rfl
@[simp] theorem applyPc_st (e : PcEffect) : (s.applyPc e).st = s.st := rfl
@[simp] theorem applyPc_keys (e : PcEffect) : (s.applyPc e).keys = s.keys := rfl
@[simp] theorem applyPc_wait (e : PcEffect) : (s.applyPc e).wait = s.wait := rfl
@[simp] theorem applyPc_fb (e : PcEffect) : (s.applyPc e).fb = s.fb := rfl
@[simp] theorem applyPc_redraw (e : PcEffect) : (s.applyPc e).redraw = s.redraw := rfl
@[simp] theorem applyPc_mem (e : PcEffect) : (s.applyPc e).mem = s.mem := rfl
@[simp] theorem applyPc_fault (e : PcEffect) : (s.applyPc e).fault = s.fault := rfl
@[simp] theorem applyPc_cfg (e : PcEffect) : (s.applyPc e).cfg = s.cfg := rfl
@[simp] theorem applyPc_keyArgs (e : PcEffect) : (s.applyPc e).keyArgs = s.keyArgs := rfl
@[simp] theorem applyPc_keyArgsTaken (e : PcEffect) : (s.applyPc e).keyArgsTaken = s.keyArgsTaken := rfl
@[simp] theorem applyPc_rndBytes (e : PcEffect) : (s.applyPc e).rndBytes = s.rndBytes := rfl
@[simp] theorem applyPc_rndTaken (e : PcEffect) : (s.applyPc e).rndTaken = s.rndTaken := rfl

/-! ## taking a random byte -/

@[simp] theorem takeRnd_v : s.takeRnd.v = s.v := rfl
@[simp] theorem takeRnd_i : s.takeRnd.i = s.i := rfl
@[simp] theorem takeRnd_pc : s.takeRnd.pc = s.pc := rfl
@[simp] theorem takeRnd_sp : s.takeRnd.sp = s.sp := rfl
@[simp] theorem takeRnd_stack : s.takeRnd.stack = s.stack := rfl
@[simp] theorem takeRnd_dt : s.takeRnd.dt = s.dt := rfl
@[simp] theorem takeRnd_st : s.takeRnd.st = s.st := rfl
@[simp] theorem takeRnd_keys : s.takeRnd.keys = s.keys := rfl
@[simp] theorem takeRnd_wait : s.takeRnd.wait = s.wait := rfl
@[simp] theorem takeRnd_fb : s.takeRnd.fb = s.fb := rfl
@[simp] theorem takeRnd_redraw : s.takeRnd.redraw = s.redraw := rfl
@[simp] theorem takeRnd_mem : s.takeRnd.mem = s.mem := rfl
@[simp] theorem takeRnd_fault : s.takeRnd.fault = s.fault := rfl
@[simp] theorem takeRnd_cfg : s.takeRnd.cfg = s.cfg := rfl
@[simp] theorem takeRnd_keyArgs : s.takeRnd.keyArgs = s.keyArgs := rfl
@[simp] theorem takeRnd_keyArgsTaken : s.takeRnd.keyArgsTaken = s.keyArgsTaken := rfl
@[simp] theorem takeRnd_rndBytes : s.takeRnd.rndBytes = s.rndBytes.tail := rfl
@[simp] theorem takeRnd_rndTaken : s.takeRnd.rndTaken = s.rndTaken + 1 := rfl

/-! ## phases P1 and P2 -/

@[simp] theorem latch_v (k : Keys) : (s.latch k).v = s.v := rfl
@[simp] theorem latch_i (k : Keys) : (s.latch k).i = s.i := rfl
@[simp] theorem latch_pc (k : Keys) : (s.latch k).pc = s.pc := rfl
@[simp] theorem latch_sp (k : Keys) : (s.latch k).sp = s.sp := rfl
@[simp] theorem latch_stack (k : Keys) : (s.latch k).stack = s.stack := rfl
@[simp] theorem latch_dt (k : Keys) : (s.latch k).dt = s.dt := rfl
@[simp] theorem latch_st (k : Keys) : (s.latch k).st = s.st := rfl
@[simp] theorem latch_keys (k : Keys) : (s.latch k).keys = k := rfl
@[simp] theorem latch_wait (k : Keys) : (s.latch k).wait = s.wait := rfl
@[simp] theorem latch_fb (k : Keys) : (s.latch k).fb = s.fb := rfl
@[simp] theorem latch_redraw (k : Keys) : (s.latch k).redraw = false := rfl
@[simp] theorem latch_mem (k : Keys) : (s.latch k).mem = s.mem := rfl
@[simp] theorem latch_fault (k : Keys) : (s.latch k).fault = s.fault := rfl
@[simp] theorem latch_cfg (k : Keys) : (s.latch k).cfg = s.cfg := rfl
@[simp] theorem latch_keyArgs (k : Keys) : (s.latch k).keyArgs = s.keyArgs.tail := rfl
@[simp] theorem latch_keyArgsTaken (k : Keys) : (s.latch k).keyArgsTaken = s.keyArgsTaken + 1 := rfl
@[simp] theorem latch_rndBytes (k : Keys) : (s.latch k).rndBytes = s.rndBytes := rfl
@[simp] theorem latch_rndTaken (k : Keys) : (s.latch k).rndTaken = s.rndTaken := rfl

/-! ## phase P4 -/

@[simp] theorem countTimers_v : s.countTimers.v = s.v := rfl
@[simp] theorem countTimers_i : s.countTimers.i = s.i := rfl
@[simp] theorem countTimers_pc : s.countTimers.pc = s.pc := rfl
@[simp] theorem countTimers_sp : s.countTimers.sp = s.sp := rfl
@[simp] theorem countTimers_stack : s.countTimers.stack = s.stack := rfl
@[simp] theorem countTimers_dt : s.countTimers.dt = countDown s.dt := rfl
@[simp] theorem countTimers_st : s.countTimers.st = countDown s.st := rfl
@[simp] theorem countTimers_keys : s.countTimers.keys = s.keys := rfl
@[simp] theorem countTimers_wait : s.countTimers.wait = s.wait := rfl
@[simp] theorem countTimers_fb : s.countTimers.fb = s.fb := rfl
@[simp] theorem countTimers_redraw : s.countTimers.redraw = s.redraw := rfl
@[simp] theorem countTimers_mem : s.countTimers.mem = s.mem := rfl
@[simp] theorem countTimers_fault : s.countTimers.fault = s.fault := rfl
@[simp] theorem countTimers_cfg : s.countTimers.cfg = s.cfg := rfl
@[simp] theorem countTimers_keyArgs : s.countTimers.keyArgs = s.keyArgs := rfl
@[simp] theorem countTimers_keyArgsTaken : s.countTimers.keyArgsTaken = s.keyArgsTaken := rfl
@[simp] theorem countTimers_rndBytes : s.countTimers.rndBytes = s.rndBytes := rfl
@[simp] theorem countTimers_rndTaken : s.countTimers.rndTaken = s.rndTaken := rfl

end Sys2Proof.Machine
end

