-- ==== Sys2Proof/Laws/Memory.lean ====
section
/-!
SUPPORT. The laws of memory: a read after a write, and that every memory operation keeps the canonical form.
-/

namespace Sys2Proof.Machine

/-! ## Lookup -/

theorem lookup_insert (m : Memory) (a b : Nat) (x : Byte) :
    Memory.lookup (Memory.insert a x m) b = if a = b then some x else Memory.lookup m b := by
  induction m with
  | nil => simp [Memory.insert, Memory.lookup]
  | cons c m ih =>
    obtain ⟨k, y⟩ := c
    simp only [Memory.insert]
    split
    · simp only [Memory.lookup, ih]
      split <;> split <;> first | rfl | omega
    · split
      · subst_vars; simp only [Memory.lookup]; split <;> rfl
      · simp only [Memory.lookup]

theorem lookup_erase (m : Memory) (a b : Nat) :
    Memory.lookup (Memory.erase a m) b = if a = b then none else Memory.lookup m b := by
  induction m with
  | nil => simp [Memory.erase, Memory.lookup]
  | cons c m ih =>
    obtain ⟨k, y⟩ := c
    simp only [Memory.erase] at ih ⊢
    by_cases hk : k = a
    · subst hk
      simp only [List.filter, bne_self_eq_false, ih, Memory.lookup]
      split <;> rfl
    · simp only [List.filter, bne_iff_ne.mpr hk, Memory.lookup, ih]
      split <;> split <;> first | rfl | omega

/-- A read after a write: the byte written at its address, every other byte as before. -/
theorem get_set (cfg : Config) (m : Memory) (a b : Nat) (x : Byte) :
    Memory.get cfg (Memory.set cfg m a x) b = if a = b then x else Memory.get cfg m b := by
  unfold Memory.get Memory.set
  by_cases hx : x = resetByte cfg a
  · rw [if_pos hx, lookup_erase]
    split
    · subst_vars; rfl
    · rfl
  · rw [if_neg hx, lookup_insert]
    split <;> rfl

/-! ## The canonical form -/

theorem mem_insert (m : Memory) (a : Nat) (x : Byte) (c : Host.Cell) :
    c ∈ Memory.insert a x m → c = (a, x) ∨ c ∈ m := by
  induction m with
  | nil => simp [Memory.insert]
  | cons d m ih =>
    obtain ⟨k, y⟩ := d
    simp only [Memory.insert]
    split
    · intro h
      rcases List.mem_cons.mp h with rfl | h
      · exact .inr (List.mem_cons_self ..)
      · exact (ih h).imp_right (List.mem_cons_of_mem _)
    · split
      · intro h
        rcases List.mem_cons.mp h with rfl | h
        · exact .inl rfl
        · exact .inr (List.mem_cons_of_mem _ h)
      · intro h
        exact List.mem_cons.mp h

theorem insert_pairwise (m : Memory) (a : Nat) (x : Byte) (h : m.Pairwise fun c d => c.1 < d.1) :
    (Memory.insert a x m).Pairwise fun c d => c.1 < d.1 := by
  induction m with
  | nil => simp [Memory.insert]
  | cons d m ih =>
    obtain ⟨k, y⟩ := d
    obtain ⟨hk, hm⟩ := List.pairwise_cons.mp h
    simp only [Memory.insert]
    split
    · rename_i hka
      refine List.pairwise_cons.mpr ⟨fun c hc => ?_, ih hm⟩
      rcases mem_insert m a x c hc with rfl | hc
      · exact hka
      · exact hk c hc
    · split
      · subst_vars; exact List.pairwise_cons.mpr ⟨hk, hm⟩
      · rename_i h1 h2
        refine List.pairwise_cons.mpr ⟨fun c hc => ?_, h⟩
        rcases List.mem_cons.mp hc with rfl | hc
        · show a < k; omega
        · have := hk c hc; simp only at this ⊢; omega

/-- What the canonical form says, as propositions. -/
theorem wf_iff (cfg : Config) (m : Memory) :
    Memory.wf cfg m = true ↔
      (m.Pairwise fun c d => c.1 < d.1) ∧ ∀ c ∈ m, c.1 < memSize ∧ c.2 ≠ resetByte cfg c.1 := by
  simp [Memory.wf, Memory.rising]

/-- A write to an address below 4096 keeps the canonical form. -/
theorem set_wf (cfg : Config) (m : Memory) (a : Nat) (x : Byte) (ha : a < memSize) (h : Memory.wf cfg m = true) :
    Memory.wf cfg (Memory.set cfg m a x) = true := by
  obtain ⟨hp, hc⟩ := (wf_iff cfg m).mp h
  refine (wf_iff _ _).mpr ?_
  unfold Memory.set
  split
  · exact ⟨hp.filter _, fun c hm => hc c (List.mem_filter.mp hm).1⟩
  · refine ⟨insert_pairwise m a x hp, fun c hm => ?_⟩
    rcases mem_insert m a x c hm with rfl | hm
    · exact ⟨ha, ‹_›⟩
    · exact hc c hm

/-- The reset contents list nothing. -/
theorem reset_wf (cfg : Config) : Memory.wf cfg (State.resetWith cfg).mem = true := by
  simp [State.resetWith, wf_iff]

/-! ## Bytes of the state -/

@[simp] theorem readByte_writeByte (s : State) (a b : Nat) (x : Byte) :
    (s.writeByte a x).readByte b = if a = b then x else s.readByte b := get_set s.cfg s.mem a b x

/-- Writing the byte an address already reads as leaves every byte as it was. -/
theorem readByte_congr {s t : State} (hm : t.mem = s.mem) (hc : t.cfg = s.cfg) (a : Nat) :
    t.readByte a = s.readByte a := by
  simp only [State.readByte, hm, hc]

/-- The bytes after a block write: those written, in order, and every other byte as before. -/
theorem readByte_writeBytes (bs : List Byte) (s : State) (a b : Nat) :
    (s.writeBytes a bs).readByte b =
      if h : a ≤ b ∧ b < a + bs.length then bs[b - a]'(by omega) else s.readByte b := by
  induction bs generalizing s a with
  | nil =>
    rw [dif_neg (by simp only [List.length_nil]; omega)]
    rfl
  | cons x bs ih =>
    simp only [State.writeBytes, ih, readByte_writeByte, List.length_cons]
    by_cases h1 : a + 1 ≤ b ∧ b < a + 1 + bs.length
    · rw [dif_pos h1, dif_pos (by omega)]
      have : b - a = (b - (a + 1)) + 1 := by omega
      simp only [this, List.getElem_cons_succ]
    · rw [dif_neg h1]
      by_cases h2 : a = b
      · subst h2
        rw [if_pos rfl, dif_pos (by omega)]
        simp only [Nat.sub_self, List.getElem_cons_zero]
      · rw [if_neg h2, dif_neg (by omega)]

/-- A block write changes the memory and nothing else. -/
theorem writeBytes_eq (bs : List Byte) (s : State) (a : Nat) :
    s.writeBytes a bs = { s with mem := (s.writeBytes a bs).mem } := by
  induction bs generalizing s a with
  | nil => rfl
  | cons x bs ih => simp only [State.writeBytes]; rw [ih]; rfl

/-- A block write below 4096 keeps the canonical form. -/
theorem writeBytes_wf (bs : List Byte) (s : State) (a : Nat) (hr : a + bs.length ≤ memSize)
    (h : Memory.wf s.cfg s.mem = true) : Memory.wf s.cfg (s.writeBytes a bs).mem = true := by
  induction bs generalizing s a with
  | nil => exact h
  | cons x bs ih =>
    simp only [List.length_cons] at hr
    exact ih (s.writeByte a x) (a + 1) (by omega) (set_wf s.cfg s.mem a x (by omega) h)

end Sys2Proof.Machine
end

