-- ==== Sys2Proof/Laws/Ops.lean ====
section
/-!
SUPPORT. One lemma per shared operation that says everything it can do: the provers cite these instead of unfolding it.
-/

namespace Sys2Proof.Machine

/-! ## Registers -/

/-- A register read after a register write. -/
@[simp] theorem readV_writeV (s : State) (r q : Nibble) (b : Byte) :
    (s.writeV r b).readV q = if r = q then b else s.readV q := by
  unfold State.readV State.writeV
  by_cases h : r = q
  · subst h; simp
  · have : r.toNat ≠ q.toNat := fun h' => h (BitVec.eq_of_toNat_eq h')
    simp [h, this]

/-- A register reads the same where the register file is the same. -/
theorem readV_congr {s t : State} (h : t.v = s.v) (r : Nibble) : t.readV r = s.readV r := by
  simp only [State.readV, h]

@[simp] theorem readV_writeByte (s : State) (a : Nat) (b : Byte) (r : Nibble) :
    (s.writeByte a b).readV r = s.readV r := rfl
@[simp] theorem readV_applyPc (s : State) (e : PcEffect) (r : Nibble) : (s.applyPc e).readV r = s.readV r := rfl
@[simp] theorem readV_takeRnd (s : State) (r : Nibble) : s.takeRnd.readV r = s.readV r := rfl
@[simp] theorem readV_latch (s : State) (k : Keys) (r : Nibble) : (s.latch k).readV r = s.readV r := rfl
@[simp] theorem readV_countTimers (s : State) (r : Nibble) : s.countTimers.readV r = s.readV r := rfl
@[simp] theorem readByte_writeV (s : State) (r : Nibble) (b : Byte) (a : Nat) :
    (s.writeV r b).readByte a = s.readByte a := rfl
@[simp] theorem readByte_applyPc (s : State) (e : PcEffect) (a : Nat) : (s.applyPc e).readByte a = s.readByte a := rfl
@[simp] theorem readByte_takeRnd (s : State) (a : Nat) : s.takeRnd.readByte a = s.readByte a := rfl
@[simp] theorem readByte_latch (s : State) (k : Keys) (a : Nat) : (s.latch k).readByte a = s.readByte a := rfl
@[simp] theorem readByte_countTimers (s : State) (a : Nat) : s.countTimers.readByte a = s.readByte a := rfl

/-! ## Block writes, field by field -/

@[simp] theorem writeBytes_v (bs : List Byte) (s : State) (a : Nat) : (s.writeBytes a bs).v = s.v := by
  rw [writeBytes_eq]
@[simp] theorem writeBytes_i (bs : List Byte) (s : State) (a : Nat) : (s.writeBytes a bs).i = s.i := by
  rw [writeBytes_eq]
@[simp] theorem writeBytes_pc (bs : List Byte) (s : State) (a : Nat) : (s.writeBytes a bs).pc = s.pc := by
  rw [writeBytes_eq]
@[simp] theorem writeBytes_sp (bs : List Byte) (s : State) (a : Nat) : (s.writeBytes a bs).sp = s.sp := by
  rw [writeBytes_eq]
@[simp] theorem writeBytes_stack (bs : List Byte) (s : State) (a : Nat) : (s.writeBytes a bs).stack = s.stack := by
  rw [writeBytes_eq]
@[simp] theorem writeBytes_dt (bs : List Byte) (s : State) (a : Nat) : (s.writeBytes a bs).dt = s.dt := by
  rw [writeBytes_eq]
@[simp] theorem writeBytes_st (bs : List Byte) (s : State) (a : Nat) : (s.writeBytes a bs).st = s.st := by
  rw [writeBytes_eq]
@[simp] theorem writeBytes_keys (bs : List Byte) (s : State) (a : Nat) : (s.writeBytes a bs).keys = s.keys := by
  rw [writeBytes_eq]
@[simp] theorem writeBytes_wait (bs : List Byte) (s : State) (a : Nat) : (s.writeBytes a bs).wait = s.wait := by
  rw [writeBytes_eq]
@[simp] theorem writeBytes_fb (bs : List Byte) (s : State) (a : Nat) : (s.writeBytes a bs).fb = s.fb := by
  rw [writeBytes_eq]
@[simp] theorem writeBytes_redraw (bs : List Byte) (s : State) (a : Nat) : (s.writeBytes a bs).redraw = s.redraw := by
  rw [writeBytes_eq]
@[simp] theorem writeBytes_fault (bs : List Byte) (s : State) (a : Nat) : (s.writeBytes a bs).fault = s.fault := by
  rw [writeBytes_eq]
@[simp] theorem writeBytes_cfg (bs : List Byte) (s : State) (a : Nat) : (s.writeBytes a bs).cfg = s.cfg := by
  rw [writeBytes_eq]
@[simp] theorem writeBytes_keyArgs (bs : List Byte) (s : State) (a : Nat) : (s.writeBytes a bs).keyArgs = s.keyArgs := by
  rw [writeBytes_eq]
@[simp] theorem writeBytes_keyArgsTaken (bs : List Byte) (s : State) (a : Nat) : (s.writeBytes a bs).keyArgsTaken = s.keyArgsTaken := by
  rw [writeBytes_eq]
@[simp] theorem writeBytes_rndBytes (bs : List Byte) (s : State) (a : Nat) : (s.writeBytes a bs).rndBytes = s.rndBytes := by
  rw [writeBytes_eq]
@[simp] theorem writeBytes_rndTaken (bs : List Byte) (s : State) (a : Nat) : (s.writeBytes a bs).rndTaken = s.rndTaken := by
  rw [writeBytes_eq]
@[simp] theorem readV_writeBytes (bs : List Byte) (s : State) (a : Nat) (r : Nibble) :
    (s.writeBytes a bs).readV r = s.readV r := readV_congr (writeBytes_v bs s a) r

/-! ## The range check and the accesses through it -/

/-- The range check passes exactly when no byte is accessed or the last one is at most 0xFFF (43_index_memory.md R146). -/
theorem rangeFault_none (addr : Word) (len : Nat) :
    rangeFault addr len = none ↔ len = 0 ∨ addr.toNat + len ≤ memSize := by
  unfold rangeFault memSize
  split <;> simp <;> omega

/-- The range check fails with the lowest address above 0xFFF, `max(addr, 0x1000)`. -/
theorem rangeFault_some (addr : Word) (len : Nat) (h : len ≠ 0 ∧ addr.toNat + len > memSize) :
    ∃ a, rangeFault addr len = some (.memRange a) ∧ a.toNat = max addr.toNat 0x1000 := by
  unfold memSize at h
  refine ⟨if addr.toNat > 0xFFF then addr else 0x1000#16, ?_, ?_⟩
  · unfold rangeFault; rw [if_pos (by omega)]
  · split
    · omega
    · simp only [BitVec.toNat_ofNat]; omega

/-- A block read in range answers the bytes at the ascending addresses. -/
theorem memRead_ok (s : State) (addr : Word) (len : Nat) (h : len = 0 ∨ addr.toNat + len ≤ memSize) :
    s.memRead addr len = .ok ((List.range len).map fun k => s.readByte (addr.toNat + k)) := by
  simp only [State.memRead, (rangeFault_none addr len).mpr h]

/-- A block read out of range raises MemRange with the lowest offending address. -/
theorem memRead_error (s : State) (addr : Word) (len : Nat) (h : len ≠ 0 ∧ addr.toNat + len > memSize) :
    ∃ a, s.memRead addr len = .error (.memRange a) ∧ a.toNat = max addr.toNat 0x1000 := by
  obtain ⟨a, ha, hm⟩ := rangeFault_some addr len h
  exact ⟨a, by simp only [State.memRead, ha], hm⟩

/-- A block write in range writes the bytes at the ascending addresses. -/
theorem memWrite_ok (s : State) (addr : Word) (bs : List Byte) (h : bs.length = 0 ∨ addr.toNat + bs.length ≤ memSize) :
    s.memWrite addr bs = .ok (s.writeBytes addr.toNat bs) := by
  simp only [State.memWrite, (rangeFault_none addr bs.length).mpr h]

/-- A block write out of range raises MemRange with the lowest offending address. -/
theorem memWrite_error (s : State) (addr : Word) (bs : List Byte)
    (h : bs.length ≠ 0 ∧ addr.toNat + bs.length > memSize) :
    ∃ a, s.memWrite addr bs = .error (.memRange a) ∧ a.toNat = max addr.toNat 0x1000 := by
  obtain ⟨a, ha, hm⟩ := rangeFault_some addr bs.length h
  exact ⟨a, by simp only [State.memWrite, ha], hm⟩

/-! ## Raising a fault -/

/-- Everything `raise` does: the record is filled if it was none, and nothing else changes. -/
theorem raise_eq (s : State) (f : Fault) :
    s.raise f = { s with fault := if s.fault.cause = .noFault
      then { cause := f.cause, info := f.info, pc := s.pc } else s.fault } := by
  unfold State.raise; split <;> rfl

@[simp] theorem raise_v (s : State) (f : Fault) : (s.raise f).v = s.v := by
  rw [raise_eq]
@[simp] theorem raise_i (s : State) (f : Fault) : (s.raise f).i = s.i := by
  rw [raise_eq]
@[simp] theorem raise_pc (s : State) (f : Fault) : (s.raise f).pc = s.pc := by
  rw [raise_eq]
@[simp] theorem raise_sp (s : State) (f : Fault) : (s.raise f).sp = s.sp := by
  rw [raise_eq]
@[simp] theorem raise_stack (s : State) (f : Fault) : (s.raise f).stack = s.stack := by
  rw [raise_eq]
@[simp] theorem raise_dt (s : State) (f : Fault) : (s.raise f).dt = s.dt := by
  rw [raise_eq]
@[simp] theorem raise_st (s : State) (f : Fault) : (s.raise f).st = s.st := by
  rw [raise_eq]
@[simp] theorem raise_keys (s : State) (f : Fault) : (s.raise f).keys = s.keys := by
  rw [raise_eq]
@[simp] theorem raise_wait (s : State) (f : Fault) : (s.raise f).wait = s.wait := by
  rw [raise_eq]
@[simp] theorem raise_fb (s : State) (f : Fault) : (s.raise f).fb = s.fb := by
  rw [raise_eq]
@[simp] theorem raise_redraw (s : State) (f : Fault) : (s.raise f).redraw = s.redraw := by
  rw [raise_eq]
@[simp] theorem raise_mem (s : State) (f : Fault) : (s.raise f).mem = s.mem := by
  rw [raise_eq]
@[simp] theorem raise_cfg (s : State) (f : Fault) : (s.raise f).cfg = s.cfg := by
  rw [raise_eq]
@[simp] theorem raise_keyArgs (s : State) (f : Fault) : (s.raise f).keyArgs = s.keyArgs := by
  rw [raise_eq]
@[simp] theorem raise_keyArgsTaken (s : State) (f : Fault) : (s.raise f).keyArgsTaken = s.keyArgsTaken := by
  rw [raise_eq]
@[simp] theorem raise_rndBytes (s : State) (f : Fault) : (s.raise f).rndBytes = s.rndBytes := by
  rw [raise_eq]
@[simp] theorem raise_rndTaken (s : State) (f : Fault) : (s.raise f).rndTaken = s.rndTaken := by
  rw [raise_eq]

/-- `raise` in the terms of the claims. -/
theorem raise_faulted (s : State) (f : Fault) : Faulted f s (s.raise f) := by
  refine ⟨raise_pc s f, fun p hp => ?_, fun h => ?_, fun h => ?_⟩
  · cases p <;> simp_all [Part.same, State.readV, State.readByte]
  · rw [raise_eq]; simp [h]
  · rw [raise_eq]; simp [h]

/-! ## Completion -/

@[simp] theorem complete_ok (s t : State) (e : PcEffect) : s.complete (.ok (t, e)) = .next (t.applyPc e) := rfl
@[simp] theorem complete_error (s : State) (f : Fault) : s.complete (.error f) = .next (s.raise f) := rfl

/-- A handler either raises a fault, with no other effect, or has its writes kept and its PC effect applied. -/
theorem complete_cases (s u : State) (h : Handled) (hu : s.complete h = .next u) :
    (∃ f, h = .error f ∧ u = s.raise f) ∨ ∃ t e, h = .ok (t, e) ∧ u = t.applyPc e := by
  cases h with
  | error f => exact .inl ⟨f, rfl, by simpa using hu.symm⟩
  | ok p =>
    obtain ⟨t, e⟩ := p
    exact .inr ⟨t, e, rfl, by simpa using hu.symm⟩

/-- Completion always answers a next state. -/
theorem complete_next (s : State) (h : Handled) : ∃ u, s.complete h = .next u := by
  cases h with
  | error f => exact ⟨_, rfl⟩
  | ok p => exact ⟨_, rfl⟩

@[simp] theorem target_next (pc : Word) : PcEffect.next.target pc = pc + 2#16 := rfl
@[simp] theorem target_skip (pc : Word) : PcEffect.skip.target pc = pc + 4#16 := rfl
@[simp] theorem target_jump (pc a : Word) : (PcEffect.jump a).target pc = a := rfl
@[simp] theorem target_skipIf (pc : Word) (c : Bool) :
    (PcEffect.skipIf c).target pc = if c then pc + 4#16 else pc + 2#16 := by cases c <;> rfl

/-! ## The call stack -/

/-- A push with room: the slot at `SP` and `SP`, nothing else. -/
theorem push_ok (s : State) (a tgt : Word) (h : s.sp ≠ 15#4) :
    s.push a tgt = .ok { s with stack := s.stack.set s.sp.toNat a, sp := s.sp + 1#4 } := if_neg h

/-- A push without room. -/
theorem push_error (s : State) (a tgt : Word) (h : s.sp = 15#4) : s.push a tgt = .error (.stackOverflow tgt) := if_pos h

/-- A pop with an entry: the slot below `SP`, and `SP`. -/
theorem pop_ok (s : State) (h : s.sp ≠ 0#4) :
    s.pop = .ok (s.stack[(s.sp - 1#4).toNat], { s with sp := s.sp - 1#4 }) := if_neg h

/-- A pop without an entry. -/
theorem pop_error (s : State) (h : s.sp = 0#4) : s.pop = .error .stackUnderflow := if_pos h

/-! ## Index operands -/

theorem keyOperand_ok (s : State) (x : Nibble) (h : (s.readV x).toNat ≤ 15) :
    s.keyOperand x = .ok (s.readV x).toNat := if_neg (by omega)

theorem keyOperand_error (s : State) (x : Nibble) (h : (s.readV x).toNat > 15) :
    s.keyOperand x = .error (.keyIndexRange (s.readV x)) := if_pos h

theorem digitOperand_ok (s : State) (x : Nibble) (h : (s.readV x).toNat ≤ 15) :
    s.digitOperand x = .ok (s.readV x).toNat := if_neg (by omega)

theorem digitOperand_error (s : State) (x : Nibble) (h : (s.readV x).toNat > 15) :
    s.digitOperand x = .error (.glyphIndexRange (s.readV x)) := if_pos h

/-! ## Register blocks -/

@[simp] theorem regBlock_length (s : State) (x : Nibble) : (s.regBlock x).length = x.toNat + 1 := by
  simp [State.regBlock]

theorem regBlock_getElem (s : State) (x : Nibble) (k : Nat) (h : k < (s.regBlock x).length) :
    (s.regBlock x)[k] = s.readV (BitVec.ofNat 4 k) := by
  simp [State.regBlock]

/-- A block of register writes changes the registers and nothing else. -/
theorem writeRegs_eq (bs : List Byte) (s : State) (k : Nat) : s.writeRegs k bs = { s with v := (s.writeRegs k bs).v } := by
  induction bs generalizing s k with
  | nil => rfl
  | cons b bs ih => simp only [State.writeRegs]; rw [ih]; rfl

@[simp] theorem writeRegs_i (bs : List Byte) (s : State) (k : Nat) : (s.writeRegs k bs).i = s.i := by
  rw [writeRegs_eq]
@[simp] theorem writeRegs_pc (bs : List Byte) (s : State) (k : Nat) : (s.writeRegs k bs).pc = s.pc := by
  rw [writeRegs_eq]
@[simp] theorem writeRegs_sp (bs : List Byte) (s : State) (k : Nat) : (s.writeRegs k bs).sp = s.sp := by
  rw [writeRegs_eq]
@[simp] theorem writeRegs_stack (bs : List Byte) (s : State) (k : Nat) : (s.writeRegs k bs).stack = s.stack := by
  rw [writeRegs_eq]
@[simp] theorem writeRegs_dt (bs : List Byte) (s : State) (k : Nat) : (s.writeRegs k bs).dt = s.dt := by
  rw [writeRegs_eq]
@[simp] theorem writeRegs_st (bs : List Byte) (s : State) (k : Nat) : (s.writeRegs k bs).st = s.st := by
  rw [writeRegs_eq]
@[simp] theorem writeRegs_keys (bs : List Byte) (s : State) (k : Nat) : (s.writeRegs k bs).keys = s.keys := by
  rw [writeRegs_eq]
@[simp] theorem writeRegs_wait (bs : List Byte) (s : State) (k : Nat) : (s.writeRegs k bs).wait = s.wait := by
  rw [writeRegs_eq]
@[simp] theorem writeRegs_fb (bs : List Byte) (s : State) (k : Nat) : (s.writeRegs k bs).fb = s.fb := by
  rw [writeRegs_eq]
@[simp] theorem writeRegs_redraw (bs : List Byte) (s : State) (k : Nat) : (s.writeRegs k bs).redraw = s.redraw := by
  rw [writeRegs_eq]
@[simp] theorem writeRegs_mem (bs : List Byte) (s : State) (k : Nat) : (s.writeRegs k bs).mem = s.mem := by
  rw [writeRegs_eq]
@[simp] theorem writeRegs_fault (bs : List Byte) (s : State) (k : Nat) : (s.writeRegs k bs).fault = s.fault := by
  rw [writeRegs_eq]
@[simp] theorem writeRegs_cfg (bs : List Byte) (s : State) (k : Nat) : (s.writeRegs k bs).cfg = s.cfg := by
  rw [writeRegs_eq]
@[simp] theorem writeRegs_keyArgs (bs : List Byte) (s : State) (k : Nat) : (s.writeRegs k bs).keyArgs = s.keyArgs := by
  rw [writeRegs_eq]
@[simp] theorem writeRegs_keyArgsTaken (bs : List Byte) (s : State) (k : Nat) : (s.writeRegs k bs).keyArgsTaken = s.keyArgsTaken := by
  rw [writeRegs_eq]
@[simp] theorem writeRegs_rndBytes (bs : List Byte) (s : State) (k : Nat) : (s.writeRegs k bs).rndBytes = s.rndBytes := by
  rw [writeRegs_eq]
@[simp] theorem writeRegs_rndTaken (bs : List Byte) (s : State) (k : Nat) : (s.writeRegs k bs).rndTaken = s.rndTaken := by
  rw [writeRegs_eq]
@[simp] theorem readByte_writeRegs (bs : List Byte) (s : State) (k a : Nat) :
    (s.writeRegs k bs).readByte a = s.readByte a := readByte_congr (writeRegs_mem bs s k) (writeRegs_cfg bs s k) a

/-- The registers after a block of writes: those written, in order, and every other one as before. -/
theorem readV_writeRegs (bs : List Byte) (s : State) (k : Nat) (hk : k + bs.length ≤ 16) (r : Nibble) :
    (s.writeRegs k bs).readV r =
      if h : k ≤ r.toNat ∧ r.toNat < k + bs.length then bs[r.toNat - k]'(by omega) else s.readV r := by
  induction bs generalizing s k with
  | nil =>
    rw [dif_neg (by simp only [List.length_nil]; omega)]
    rfl
  | cons b bs ih =>
    simp only [List.length_cons] at hk
    have hkr : BitVec.ofNat 4 k = r ↔ k = r.toNat := by
      rw [← BitVec.toNat_inj, BitVec.toNat_ofNat, Nat.mod_eq_of_lt (by omega)]
    simp only [State.writeRegs, ih _ (k + 1) (by omega), readV_writeV, hkr, List.length_cons]
    by_cases h1 : k + 1 ≤ r.toNat ∧ r.toNat < k + 1 + bs.length
    · rw [dif_pos h1, dif_pos (by omega)]
      have : r.toNat - k = (r.toNat - (k + 1)) + 1 := by omega
      simp only [this, List.getElem_cons_succ]
    · rw [dif_neg h1]
      by_cases h2 : k = r.toNat
      · rw [if_pos h2, dif_pos (by omega)]
        simp only [h2, Nat.sub_self, List.getElem_cons_zero]
      · rw [if_neg h2, dif_neg (by omega)]

/-! ## Flags -/

@[simp] theorem writeResultAndFlag_last (s : State) (x y : Nibble) (res fl : Byte → Byte → Byte)
    (h : s.cfg.vfWriteOrder = .flagLast) :
    s.writeResultAndFlag x y res fl =
      (s.writeV x (res (s.readV x) (s.readV y))).writeV flagReg (fl (s.readV x) (s.readV y)) := by
  simp only [State.writeResultAndFlag, h]

@[simp] theorem writeResultAndFlag_first (s : State) (x y : Nibble) (res fl : Byte → Byte → Byte)
    (h : s.cfg.vfWriteOrder = .flagFirst) :
    s.writeResultAndFlag x y res fl =
      (s.writeV flagReg (fl (s.readV x) (s.readV y))).writeV x
        (res ((s.writeV flagReg (fl (s.readV x) (s.readV y))).readV x)
          ((s.writeV flagReg (fl (s.readV x) (s.readV y))).readV y)) := by
  simp only [State.writeResultAndFlag, h]

/-- Result and flag writes change the registers and nothing else. -/
theorem writeResultAndFlag_eq (s : State) (x y : Nibble) (res fl : Byte → Byte → Byte) :
    s.writeResultAndFlag x y res fl = { s with v := (s.writeResultAndFlag x y res fl).v } := by
  unfold State.writeResultAndFlag; split <;> rfl

/-- Result and flag writes touch no register but `x` and VF. -/
theorem readV_writeResultAndFlag_other (s : State) (x y r : Nibble) (res fl : Byte → Byte → Byte)
    (hx : x ≠ r) (hf : flagReg ≠ r) : (s.writeResultAndFlag x y res fl).readV r = s.readV r := by
  unfold State.writeResultAndFlag; split <;> simp [hx, hf]

/-! ## The wait -/

/-- The lowest key down: it is down, it is a key, and no lower key is down (40_tick_cycle.md R84). -/
theorem lowestKey_some (keys : Keys) (k : Nat) (h : lowestKey keys = some k) :
    k < 16 ∧ keys.getLsbD k = true ∧ ∀ j, j < k → keys.getLsbD j = false := by
  obtain ⟨hk, i, hi, hik, hlt⟩ := List.find?_eq_some_iff_getElem.mp h
  simp only [List.length_range] at hi
  simp only [List.getElem_range] at hik hlt
  subst hik
  exact ⟨hi, hk, fun j hj => by simpa using hlt j hj⟩

/-- No key is down. -/
theorem lowestKey_none (keys : Keys) : lowestKey keys = none ↔ keys = 0 := by
  simp only [lowestKey, List.find?_eq_none, List.mem_range]
  constructor
  · intro h
    apply BitVec.eq_of_getLsbD_eq
    intro i hi
    simpa using h i hi
  · rintro rfl; simp

/-- With a key down the wait resolves with the lowest one. -/
theorem resolveWait_some (s : State) (r : Nibble) (k : Nat) (h : lowestKey s.keys = some k) :
    s.resolveWait r = { s.writeV r (BitVec.ofNat 8 k) with wait := .running } := by
  simp only [State.resolveWait, h]

/-- With no key down nothing changes. -/
theorem resolveWait_none (s : State) (r : Nibble) (h : lowestKey s.keys = none) : s.resolveWait r = s := by
  simp only [State.resolveWait, h]

/-! ## Timers -/

/-- A timer counts down by one and never below zero (40_tick_cycle.md R85). -/
theorem countDown_toNat (t : Byte) : (countDown t).toNat = t.toNat - 1 := by
  unfold countDown
  split
  · subst_vars; rfl
  · rename_i h
    have : t.toNat ≠ 0 := fun h' => h (BitVec.eq_of_toNat_eq h')
    have hle : (1 : Byte) ≤ t := by
      show (1 : Byte).toNat ≤ t.toNat
      exact Nat.one_le_iff_ne_zero.mpr this
    rw [BitVec.toNat_sub_of_le hle]
    rfl

/-! ## Fetch -/

/-- The two bytes of an in-range fetch. -/
theorem fetch_ok (s : State) (h : s.pc.toNat ≤ 0xFFE) :
    s.fetch = .ok [s.readByte s.pc.toNat, s.readByte (s.pc.toNat + 1)] := by
  unfold State.fetch
  rw [memRead_ok _ _ _ (.inr (by unfold memSize; omega))]
  rfl

/-- An out-of-range fetch raises MemRange with the first out-of-range address. -/
theorem fetch_error (s : State) (h : s.pc.toNat > 0xFFE) :
    ∃ a, s.fetch = .error (.memRange a) ∧ a.toNat = max s.pc.toNat 0x1000 := by
  unfold State.fetch
  exact memRead_error _ _ _ ⟨by omega, by unfold memSize; omega⟩

/-! ## Placing an opcode -/

/-- Two bytes can be fetched where the opcode is placed. -/
theorem readyToFetch_pc (s : State) : s.readyToFetch.pc.toNat ≤ 0xFFE := by
  unfold State.readyToFetch
  simp only
  split
  · assumption
  · decide

end Sys2Proof.Machine
end

