-- ==== Sys2Proof/Laws/Display.lean ====
section
/-!
SUPPORT. The framebuffer's laws and what a draw does: each covered pixel is XORed once, every other pixel is kept, and
the collision is that of the picture before the draw (44_display.md R150, R152).
-/

namespace Sys2Proof.Machine

/-- A pixel read after a pixel write. -/
theorem pixel_setPixel (fb : FrameBuffer) (px qx : Fin 64) (py qy : Fin 32) (b : Bool) :
    FrameBuffer.pixel (FrameBuffer.setPixel fb px py b) qx qy =
      if px = qx ∧ py = qy then b else FrameBuffer.pixel fb qx qy := by
  unfold FrameBuffer.pixel FrameBuffer.setPixel
  by_cases hy : py = qy
  · subst hy
    have hq := qx.isLt
    by_cases hx : px = qx
    · subst hx
      cases b <;> simp [hq]
    · have hne : px.val ≠ qx.val := fun h => hx (Fin.ext h)
      simp only [hx, Fin.getElem_fin, Vector.getElem_set_self, false_and, if_false]
      by_cases hlt : qx.val < px.val
      · simp [hlt, hq]
      · have h0 : qx.val - px.val ≠ 0 := by omega
        cases b <;> simp [hlt, hq, h0]
  · have hne : py.val ≠ qy.val := fun h => hy (Fin.ext h)
    simp [hy, hne]

/-- Distinct sprite columns land in distinct columns (44_display.md R150). -/
theorem spriteColumn_inj (x0 : Byte) (i j : Nat) (hi : i < 64) (hj : j < 64)
    (h : spriteColumn x0 i = spriteColumn x0 j) : i = j := by
  have := congrArg Fin.val h
  simp only [spriteColumn, Fin.ofNat] at this
  omega

/-- Distinct sprite rows land in distinct rows (44_display.md R150). -/
theorem spriteRow_inj (y0 : Byte) (i j : Nat) (hi : i < 32) (hj : j < 32)
    (h : spriteRow y0 i = spriteRow y0 j) : i = j := by
  have := congrArg Fin.val h
  simp only [spriteRow, Fin.ofNat] at this
  omega

/-- A pixel after one bit of a draw. -/
theorem pixel_drawBit (px qx : Fin 64) (py qy : Fin 32) (b : Bool) (acc : FrameBuffer × Bool) :
    FrameBuffer.pixel (drawBit px py b acc).1 qx qy =
      if px = qx ∧ py = qy then (FrameBuffer.pixel acc.1 px py ^^ b) else FrameBuffer.pixel acc.1 qx qy :=
  pixel_setPixel ..

/-- The pixels one row of a draw does not cover are kept. -/
theorem pixel_drawBits_kept (x0 : Byte) (py : Fin 32) (b : Byte) (fuel bit : Nat) (acc : FrameBuffer × Bool)
    (qx : Fin 64) (qy : Fin 32)
    (h : qy = py → ∀ k, bit ≤ k → k < bit + fuel → spriteColumn x0 k ≠ qx) :
    FrameBuffer.pixel (drawBits x0 py b fuel bit acc).1 qx qy = FrameBuffer.pixel acc.1 qx qy := by
  induction fuel generalizing bit acc with
  | zero => rfl
  | succ fuel ih =>
    rw [drawBits, ih _ _ (fun hq k h1 h2 => h hq k (by omega) (by omega)), pixel_drawBit, if_neg]
    rintro ⟨hx, hy⟩
    exact h hy.symm bit (by omega) (by omega) hx

/-- Each pixel one row of a draw covers is XORed once. -/
theorem pixel_drawBits_covered (x0 : Byte) (py : Fin 32) (b : Byte) (fuel bit : Nat) (acc : FrameBuffer × Bool)
    (hf : bit + fuel ≤ 64) (k : Nat) (h1 : bit ≤ k) (h2 : k < bit + fuel) :
    FrameBuffer.pixel (drawBits x0 py b fuel bit acc).1 (spriteColumn x0 k) py =
      (FrameBuffer.pixel acc.1 (spriteColumn x0 k) py ^^ spriteBit b k) := by
  induction fuel generalizing bit acc with
  | zero => omega
  | succ fuel ih =>
    rw [drawBits]
    by_cases hk : k = bit
    · subst hk
      rw [pixel_drawBits_kept, pixel_drawBit, if_pos ⟨rfl, rfl⟩]
      intro _ j hj1 hj2 hj
      have := spriteColumn_inj x0 j k (by omega) (by omega) hj
      omega
    · rw [ih _ _ (by omega) (by omega) (by omega), pixel_drawBit, if_neg]
      rintro ⟨hx, -⟩
      exact hk (spriteColumn_inj x0 bit k (by omega) (by omega) hx).symm

/-- The collision of one row: some covered pixel was set under a set bit. -/
theorem drawBits_collision (x0 : Byte) (py : Fin 32) (b : Byte) (fuel bit : Nat) (acc : FrameBuffer × Bool)
    (hf : bit + fuel ≤ 64) :
    (drawBits x0 py b fuel bit acc).2 = true ↔ acc.2 = true ∨ ∃ k, bit ≤ k ∧ k < bit + fuel ∧
      FrameBuffer.pixel acc.1 (spriteColumn x0 k) py = true ∧ spriteBit b k = true := by
  induction fuel generalizing bit acc with
  | zero => simp [drawBits]; omega
  | succ fuel ih =>
    rw [drawBits, ih _ _ (by omega)]
    have hkept : ∀ k, bit + 1 ≤ k → k < bit + 1 + fuel →
        FrameBuffer.pixel (drawBit (spriteColumn x0 bit) py (spriteBit b bit) acc).1 (spriteColumn x0 k) py =
          FrameBuffer.pixel acc.1 (spriteColumn x0 k) py := by
      intro k h1 h2
      rw [pixel_drawBit, if_neg]
      rintro ⟨hx, -⟩
      have := spriteColumn_inj x0 bit k (by omega) (by omega) hx
      omega
    constructor
    · rintro (h | ⟨k, h1, h2, h3, h4⟩)
      · simp only [drawBit, Bool.or_eq_true, Bool.and_eq_true] at h
        rcases h with h | ⟨h3, h4⟩
        · exact .inl h
        · exact .inr ⟨bit, by omega, by omega, h3, h4⟩
      · exact .inr ⟨k, by omega, by omega, by rwa [hkept k h1 h2] at h3, h4⟩
    · rintro (h | ⟨k, h1, h2, h3, h4⟩)
      · left; simp [drawBit, h]
      · by_cases hk : k = bit
        · subst hk; left; simp [drawBit, h3, h4]
        · exact .inr ⟨k, by omega, by omega, by rwa [hkept k (by omega) (by omega)], h4⟩

/-- The pixels a draw does not cover are kept. -/
theorem pixel_drawRows_kept (x0 y0 : Byte) (bs : List Byte) (row : Nat) (acc : FrameBuffer × Bool)
    (qx : Fin 64) (qy : Fin 32)
    (h : ∀ j k, row ≤ j → j < row + bs.length → k < 8 → ¬ (spriteColumn x0 k = qx ∧ spriteRow y0 j = qy)) :
    FrameBuffer.pixel (drawRows x0 y0 row acc bs).1 qx qy = FrameBuffer.pixel acc.1 qx qy := by
  induction bs generalizing row acc with
  | nil => rfl
  | cons b bs ih =>
    simp only [List.length_cons] at h
    rw [drawRows, ih _ _ (fun j k h1 h2 h3 => h j k (by omega) (by omega) h3), pixel_drawBits_kept]
    intro hq k _ h2 hx
    exact h row k (by omega) (by omega) (by omega) ⟨hx, hq.symm⟩

/-- Each pixel a draw covers is XORed once with the sprite's bit. -/
theorem pixel_drawRows_covered (x0 y0 : Byte) (bs : List Byte) (row : Nat) (acc : FrameBuffer × Bool)
    (hb : row + bs.length ≤ 32) (j k : Nat) (h1 : row ≤ j) (h2 : j < row + bs.length) (hk : k < 8) :
    FrameBuffer.pixel (drawRows x0 y0 row acc bs).1 (spriteColumn x0 k) (spriteRow y0 j) =
      (FrameBuffer.pixel acc.1 (spriteColumn x0 k) (spriteRow y0 j) ^^ spriteBit (bs[j - row]'(by omega)) k) := by
  induction bs generalizing row acc with
  | nil => simp at h2; omega
  | cons b bs ih =>
    simp only [List.length_cons] at hb h2
    rw [drawRows]
    by_cases hj : j = row
    · subst hj
      rw [pixel_drawRows_kept, pixel_drawBits_covered _ _ _ _ _ _ (by omega) _ (by omega) (by omega)]
      · simp
      · rintro j' k' h3 h4 - ⟨-, hr⟩
        have := spriteRow_inj y0 j' j (by omega) (by omega) hr
        omega
    · rw [ih _ _ (by omega) (by omega) (by omega), pixel_drawBits_kept]
      · have : j - row = (j - (row + 1)) + 1 := by omega
        simp only [this, List.getElem_cons_succ]
      · intro hr
        have := spriteRow_inj y0 j row (by omega) (by omega) hr
        omega

/-- The collision of a draw: some covered pixel was set, before the draw, under a set bit. -/
theorem drawRows_collision (x0 y0 : Byte) (bs : List Byte) (row : Nat) (acc : FrameBuffer × Bool)
    (hb : row + bs.length ≤ 32) :
    (drawRows x0 y0 row acc bs).2 = true ↔ acc.2 = true ∨ ∃ j k, ∃ _ : row ≤ j, ∃ h : j < row + bs.length, k < 8 ∧
      FrameBuffer.pixel acc.1 (spriteColumn x0 k) (spriteRow y0 j) = true ∧
        spriteBit (bs[j - row]'(by omega)) k = true := by
  induction bs generalizing row acc with
  | nil => simp [drawRows]; omega
  | cons b bs ih =>
    simp only [List.length_cons] at hb
    rw [drawRows, ih _ _ (by omega), drawBits_collision _ _ _ _ _ _ (by omega)]
    have hkept : ∀ j k, row + 1 ≤ j → j < row + 1 + bs.length →
        FrameBuffer.pixel (drawBits x0 (spriteRow y0 row) b 8 0 acc).1 (spriteColumn x0 k) (spriteRow y0 j) =
          FrameBuffer.pixel acc.1 (spriteColumn x0 k) (spriteRow y0 j) := by
      intro j k h1 h2
      apply pixel_drawBits_kept
      intro hr
      have := spriteRow_inj y0 j row (by omega) (by omega) hr
      omega
    constructor
    · rintro ((h | ⟨k, -, h2, h3, h4⟩) | ⟨j, k, h1, h2, hk, h3, h4⟩)
      · exact .inl h
      · refine .inr ⟨row, k, by omega, by simp, by omega, h3, ?_⟩
        simpa using h4
      · refine .inr ⟨j, k, by omega, by simp; omega, hk, by rwa [hkept j k h1 h2] at h3, ?_⟩
        have : j - row = (j - (row + 1)) + 1 := by omega
        simpa only [this, List.getElem_cons_succ] using h4
    · rintro (h | ⟨j, k, h1, h2, hk, h3, h4⟩)
      · exact .inl (.inl h)
      · simp only [List.length_cons] at h2
        by_cases hj : j = row
        · subst hj
          refine .inl (.inr ⟨k, by omega, by omega, h3, ?_⟩)
          simpa using h4
        · refine .inr ⟨j, k, by omega, by omega, hk, by rwa [hkept j k (by omega) (by omega)], ?_⟩
          have : j - row = (j - (row + 1)) + 1 := by omega
          simpa only [this, List.getElem_cons_succ] using h4

/-- A draw changes the framebuffer, the redraw flag and VF, and nothing else. -/
theorem drawSprite_eq (s : State) (x y : Nibble) (bytes : List Byte) :
    s.drawSprite x y bytes =
      { s.writeV flagReg (flagByte (drawRows (s.readV x) (s.readV y) 0 (s.fb, false) bytes).2) with
        fb := (drawRows (s.readV x) (s.readV y) 0 (s.fb, false) bytes).1, redraw := true } := rfl

end Sys2Proof.Machine
end

