-- ==== Sys2Proof/Laws/Exec.lean ====
section
/-!
SUPPORT. What an instruction can do and what a tick can do, said once: the claims over all instructions and all steps
are derived from these instead of unfolding `exec` or `tick`.
-/

namespace Sys2Proof.Machine

/-- A frame survives the PC effect. -/
theorem onlyChanges_applyPc {ps : List Part} {s t : State} (h : OnlyChanges ps s t) (e : PcEffect) :
    OnlyChanges ps s (t.applyPc e) := fun p hp => by
  have := h p hp
  cases p <;> exact this

/-- Nothing changes from a state to itself. -/
theorem onlyChanges_refl (ps : List Part) (s : State) : OnlyChanges ps s s := fun p _ => by
  cases p <;> simp [Part.same]

/-- Frames compose. -/
theorem onlyChanges_trans {ps : List Part} {s t u : State} (h : OnlyChanges ps s t) (g : OnlyChanges ps t u) :
    OnlyChanges ps s u := fun p hp => by
  have h := h p hp
  have g := g p hp
  cases p <;> simp_all [Part.same]

/-- A longer list of parts allows more. -/
theorem onlyChanges_mono {ps qs : List Part} {s t : State} (h : OnlyChanges ps s t) (hs : ∀ p, p ∈ ps → p ∈ qs) :
    OnlyChanges qs s t := fun p hp => h p fun hq => hp (hs p hq)

/-- A register write changes the registers only. -/
theorem onlyChanges_writeV (s : State) (r : Nibble) (b : Byte) : OnlyChanges [.regs] s (s.writeV r b) := fun p hp => by
  cases p <;> simp_all [Part.same]

/-- Result and flag writes change the registers only. -/
theorem onlyChanges_writeResultAndFlag (s : State) (x y : Nibble) (res fl : Byte → Byte → Byte) :
    OnlyChanges [.regs] s (s.writeResultAndFlag x y res fl) := fun p hp => by
  rw [writeResultAndFlag_eq]
  cases p <;> simp_all [Part.same, State.readByte]

/-- A block write changes the memory only. -/
theorem onlyChanges_writeBytes (s : State) (a : Nat) (bs : List Byte) :
    OnlyChanges [.memory] s (s.writeBytes a bs) := fun p hp => by
  cases p <;> simp_all [Part.same]

/-- A block of register writes changes the registers only. -/
theorem onlyChanges_writeRegs (s : State) (k : Nat) (bs : List Byte) :
    OnlyChanges [.regs] s (s.writeRegs k bs) := fun p hp => by
  cases p <;> simp_all [Part.same]

/-- A draw changes VF, the framebuffer and the redraw flag only. -/
theorem onlyChanges_drawSprite (s : State) (x y : Nibble) (bs : List Byte) :
    OnlyChanges [.regs, .frameBuffer, .redraw] s (s.drawSprite x y bs) := fun p hp => by
  rw [drawSprite_eq]
  cases p <;> simp_all [Part.same, State.readByte]

/-- Completion of a handler whose writes stay in the listed parts. -/
theorem complete_onlyChanges {ps : List Part} {s u : State} {h : Handled}
    (hh : ∀ t e, h = .ok (t, e) → OnlyChanges ps s t) (hu : s.complete h = .next u) :
    (∃ f, h = .error f ∧ u = s.raise f) ∨ OnlyChanges ps s u := by
  rcases complete_cases s u h hu with ⟨f, hf, rfl⟩ | ⟨t, e, ht, rfl⟩
  · exact .inl ⟨f, hf, rfl⟩
  · exact .inr (onlyChanges_applyPc (hh t e ht) e)

/-! ## Each instruction as a handler completed -/

theorem exec_sys (nnn : Addr12) (s : State) :
    exec (.sys nnn) s = s.complete (.error (.decodeFailure (encode (.sys nnn)))) := rfl
theorem exec_cls (s : State) :
    exec .cls s = s.complete (.ok ({ s with fb := Vector.replicate 32 0, redraw := true }, .next)) := rfl
theorem exec_ret (s : State) :
    exec .ret s = s.complete (s.pop.map fun p => (p.2, .jump (p.1 + 2#16))) := rfl
theorem exec_jp (nnn : Addr12) (s : State) :
    exec (.jp nnn) s = s.complete (.ok (s, .jump (zextAddr nnn))) := rfl
theorem exec_call (nnn : Addr12) (s : State) :
    exec (.call nnn) s = s.complete ((s.push s.pc (zextAddr nnn)).map fun t => (t, .jump (zextAddr nnn))) := rfl
theorem exec_seImm (x : Nibble) (kk : Byte) (s : State) :
    exec (.seImm x kk) s = s.complete (.ok (s, .skipIf (s.readV x == kk))) := rfl
theorem exec_sneImm (x : Nibble) (kk : Byte) (s : State) :
    exec (.sneImm x kk) s = s.complete (.ok (s, .skipIf (s.readV x != kk))) := rfl
theorem exec_seReg (x y : Nibble) (s : State) :
    exec (.seReg x y) s = s.complete (.ok (s, .skipIf (s.readV x == s.readV y))) := rfl
theorem exec_ldImm (x : Nibble) (kk : Byte) (s : State) :
    exec (.ldImm x kk) s = s.complete (.ok (s.writeV x kk, .next)) := rfl
theorem exec_addImm (x : Nibble) (kk : Byte) (s : State) :
    exec (.addImm x kk) s = s.complete (.ok (s.writeV x (s.readV x + kk), .next)) := rfl
theorem exec_ldReg (x y : Nibble) (s : State) :
    exec (.ldReg x y) s = s.complete (.ok (s.writeV x (s.readV y), .next)) := rfl
theorem exec_orReg (x y : Nibble) (s : State) :
    exec (.orReg x y) s = s.complete (.ok (s.writeV x (s.readV x ||| s.readV y), .next)) := rfl
theorem exec_andReg (x y : Nibble) (s : State) :
    exec (.andReg x y) s = s.complete (.ok (s.writeV x (s.readV x &&& s.readV y), .next)) := rfl
theorem exec_xorReg (x y : Nibble) (s : State) :
    exec (.xorReg x y) s = s.complete (.ok (s.writeV x (s.readV x ^^^ s.readV y), .next)) := rfl
theorem exec_addReg (x y : Nibble) (s : State) :
    exec (.addReg x y) s = s.complete (.ok (s.writeResultAndFlag x y (fun a b => a + b) carryFlag, .next)) := rfl
theorem exec_sub (x y : Nibble) (s : State) :
    exec (.sub x y) s = s.complete (.ok (s.writeResultAndFlag x y (fun a b => a - b) greaterFlag, .next)) := rfl
theorem exec_shr (x y : Nibble) (s : State) :
    exec (.shr x y) s = s.complete (.ok (s.writeResultAndFlag x x (fun a _ => a >>> 1) (fun a _ => lowBitFlag a), .next)) := rfl
theorem exec_subn (x y : Nibble) (s : State) :
    exec (.subn x y) s = s.complete (.ok (s.writeResultAndFlag x y (fun a b => b - a) (fun a b => greaterFlag b a), .next)) := rfl
theorem exec_shl (x y : Nibble) (s : State) :
    exec (.shl x y) s = s.complete (.ok (s.writeResultAndFlag x x (fun a _ => a <<< 1) (fun a _ => highBitFlag a), .next)) := rfl
theorem exec_sneReg (x y : Nibble) (s : State) :
    exec (.sneReg x y) s = s.complete (.ok (s, .skipIf (s.readV x != s.readV y))) := rfl
theorem exec_ldI (nnn : Addr12) (s : State) :
    exec (.ldI nnn) s = s.complete (.ok ({ s with i := zextAddr nnn }, .next)) := rfl
theorem exec_jpV0 (nnn : Addr12) (s : State) :
    exec (.jpV0 nnn) s = s.complete (.ok (s, .jump (zextAddr nnn + zextByte (s.readV 0#4)))) := rfl
theorem exec_rnd (x : Nibble) (kk : Byte) (s : State) :
    exec (.rnd x kk) s = s.complete (.ok (s.takeRnd.writeV x (s.nextRnd &&& kk), .next)) := rfl
theorem exec_drw (x y n : Nibble) (s : State) :
    exec (.drw x y n) s = s.complete ((s.memRead s.i n.toNat).map fun bytes => (s.drawSprite x y bytes, .next)) := rfl
theorem exec_skp (x : Nibble) (s : State) :
    exec (.skp x) s = s.complete ((s.keyOperand x).map fun k => (s, .skipIf (s.keys.getLsbD k))) := rfl
theorem exec_sknp (x : Nibble) (s : State) :
    exec (.sknp x) s = s.complete ((s.keyOperand x).map fun k => (s, .skipIf (!s.keys.getLsbD k))) := rfl
theorem exec_ldVxDt (x : Nibble) (s : State) :
    exec (.ldVxDt x) s = s.complete (.ok (s.writeV x s.dt, .next)) := rfl
theorem exec_ldVxK (x : Nibble) (s : State) :
    exec (.ldVxK x) s = s.complete (.ok ({ s with wait := .waitingForKey x }, .next)) := rfl
theorem exec_ldDtVx (x : Nibble) (s : State) :
    exec (.ldDtVx x) s = s.complete (.ok ({ s with dt := s.readV x }, .next)) := rfl
theorem exec_ldStVx (x : Nibble) (s : State) :
    exec (.ldStVx x) s = s.complete (.ok ({ s with st := s.readV x }, .next)) := rfl
theorem exec_addI (x : Nibble) (s : State) :
    exec (.addI x) s = s.complete (.ok ({ s with i := s.i + zextByte (s.readV x) }, .next)) := rfl
theorem exec_ldF (x : Nibble) (s : State) :
    exec (.ldF x) s = s.complete ((s.digitOperand x).map fun d => ({ s with i := glyphAddr s.cfg d }, .next)) := rfl
theorem exec_ldB (x : Nibble) (s : State) :
    exec (.ldB x) s = s.complete ((s.memWrite s.i (bcdDigits (s.readV x))).map fun t => (t, .next)) := rfl
theorem exec_ldMemVx (x : Nibble) (s : State) :
    exec (.ldMemVx x) s = s.complete ((s.memWrite s.i (s.regBlock x)).map fun t => (t, .next)) := rfl
theorem exec_ldVxMem (x : Nibble) (s : State) :
    exec (.ldVxMem x) s = s.complete ((s.memRead s.i (x.toNat + 1)).map fun bs => (s.writeRegs 0 bs, .next)) := rfl

/-- Everything an instruction can do: it raises a fault, with no other effect, or it changes only its own parts. -/
theorem exec_cases (i : Instr) (s t : State) (h : exec i s = .next t) :
    (∃ f, t = s.raise f) ∨ OnlyChanges (writes i) s t := by
  suffices hs : ∃ hd : Handled, exec i s = s.complete hd ∧ ∀ u e, hd = .ok (u, e) → OnlyChanges (writes i) s u by
    obtain ⟨hd, he, hw⟩ := hs
    rw [he] at h
    rcases complete_onlyChanges hw h with ⟨f, -, hf⟩ | hf
    · exact .inl ⟨f, hf⟩
    · exact .inr hf
  cases i with
  | sys nnn => exact ⟨_, exec_sys _ _, fun u e h => by cases h⟩
  | cls =>
    refine ⟨_, exec_cls _, fun u e h => ?_⟩
    cases h
    intro p hp
    cases p <;> simp_all [Part.same, writes, State.readV, State.readByte]
  | ret =>
    refine ⟨_, exec_ret _, fun u e h => ?_⟩
    by_cases h0 : s.sp = 0#4
    · rw [pop_error s h0] at h; cases h
    · rw [pop_ok s h0] at h
      cases h
      intro p hp
      cases p <;> simp_all [Part.same, writes, State.readV, State.readByte]
  | call nnn =>
    refine ⟨_, exec_call _ _, fun u e h => ?_⟩
    by_cases h0 : s.sp = 15#4
    · rw [push_error _ _ _ h0] at h; cases h
    · rw [push_ok _ _ _ h0] at h
      cases h
      intro p hp
      cases p <;> simp_all [Part.same, writes, State.readV, State.readByte]
  | jp nnn => exact ⟨_, exec_jp _ _, fun u e h => by cases h; exact onlyChanges_refl _ _⟩
  | jpV0 nnn => exact ⟨_, exec_jpV0 _ _, fun u e h => by cases h; exact onlyChanges_refl _ _⟩
  | seImm x kk => exact ⟨_, exec_seImm _ _ _, fun u e h => by cases h; exact onlyChanges_refl _ _⟩
  | sneImm x kk => exact ⟨_, exec_sneImm _ _ _, fun u e h => by cases h; exact onlyChanges_refl _ _⟩
  | seReg x y => exact ⟨_, exec_seReg _ _ _, fun u e h => by cases h; exact onlyChanges_refl _ _⟩
  | sneReg x y => exact ⟨_, exec_sneReg _ _ _, fun u e h => by cases h; exact onlyChanges_refl _ _⟩
  | ldImm x kk => exact ⟨_, exec_ldImm _ _ _, fun u e h => by cases h; exact onlyChanges_writeV _ _ _⟩
  | addImm x kk => exact ⟨_, exec_addImm _ _ _, fun u e h => by cases h; exact onlyChanges_writeV _ _ _⟩
  | ldReg x y => exact ⟨_, exec_ldReg _ _ _, fun u e h => by cases h; exact onlyChanges_writeV _ _ _⟩
  | orReg x y => exact ⟨_, exec_orReg _ _ _, fun u e h => by cases h; exact onlyChanges_writeV _ _ _⟩
  | andReg x y => exact ⟨_, exec_andReg _ _ _, fun u e h => by cases h; exact onlyChanges_writeV _ _ _⟩
  | xorReg x y => exact ⟨_, exec_xorReg _ _ _, fun u e h => by cases h; exact onlyChanges_writeV _ _ _⟩
  | addReg x y => exact ⟨_, exec_addReg _ _ _, fun u e h => by cases h; exact onlyChanges_writeResultAndFlag _ _ _ _ _⟩
  | sub x y => exact ⟨_, exec_sub _ _ _, fun u e h => by cases h; exact onlyChanges_writeResultAndFlag _ _ _ _ _⟩
  | shr x y => exact ⟨_, exec_shr _ _ _, fun u e h => by cases h; exact onlyChanges_writeResultAndFlag _ _ _ _ _⟩
  | subn x y => exact ⟨_, exec_subn _ _ _, fun u e h => by cases h; exact onlyChanges_writeResultAndFlag _ _ _ _ _⟩
  | shl x y => exact ⟨_, exec_shl _ _ _, fun u e h => by cases h; exact onlyChanges_writeResultAndFlag _ _ _ _ _⟩
  | ldVxDt x => exact ⟨_, exec_ldVxDt _ _, fun u e h => by cases h; exact onlyChanges_writeV _ _ _⟩
  | rnd x kk =>
    refine ⟨_, exec_rnd _ _ _, fun u e h => ?_⟩
    cases h
    intro p hp
    cases p <;> simp_all [Part.same, writes]
  | drw x y n =>
    refine ⟨_, exec_drw _ _ _ _, fun u e h => ?_⟩
    cases hr : s.memRead s.i n.toNat with
    | error f => rw [hr] at h; cases h
    | ok bs => rw [hr] at h; cases h; exact onlyChanges_drawSprite _ _ _ _
  | skp x =>
    refine ⟨_, exec_skp _ _, fun u e h => ?_⟩
    cases hr : s.keyOperand x with
    | error f => rw [hr] at h; cases h
    | ok k => rw [hr] at h; cases h; exact onlyChanges_refl _ _
  | sknp x =>
    refine ⟨_, exec_sknp _ _, fun u e h => ?_⟩
    cases hr : s.keyOperand x with
    | error f => rw [hr] at h; cases h
    | ok k => rw [hr] at h; cases h; exact onlyChanges_refl _ _
  | ldVxK x =>
    refine ⟨_, exec_ldVxK _ _, fun u e h => ?_⟩
    cases h
    intro p hp
    cases p <;> simp_all [Part.same, writes, State.readV, State.readByte]
  | ldDtVx x =>
    refine ⟨_, exec_ldDtVx _ _, fun u e h => ?_⟩
    cases h
    intro p hp
    cases p <;> simp_all [Part.same, writes, State.readV, State.readByte]
  | ldStVx x =>
    refine ⟨_, exec_ldStVx _ _, fun u e h => ?_⟩
    cases h
    intro p hp
    cases p <;> simp_all [Part.same, writes, State.readV, State.readByte]
  | addI x =>
    refine ⟨_, exec_addI _ _, fun u e h => ?_⟩
    cases h
    intro p hp
    cases p <;> simp_all [Part.same, writes, State.readV, State.readByte]
  | ldI nnn =>
    refine ⟨_, exec_ldI _ _, fun u e h => ?_⟩
    cases h
    intro p hp
    cases p <;> simp_all [Part.same, writes, State.readV, State.readByte]
  | ldF x =>
    refine ⟨_, exec_ldF _ _, fun u e h => ?_⟩
    cases hr : s.digitOperand x with
    | error f => rw [hr] at h; cases h
    | ok d =>
      rw [hr] at h
      cases h
      intro p hp
      cases p <;> simp_all [Part.same, writes, State.readV, State.readByte]
  | ldB x =>
    refine ⟨_, exec_ldB _ _, fun u e h => ?_⟩
    unfold State.memWrite at h
    split at h
    · cases h
    · cases h; exact onlyChanges_writeBytes _ _ _
  | ldMemVx x =>
    refine ⟨_, exec_ldMemVx _ _, fun u e h => ?_⟩
    unfold State.memWrite at h
    split at h
    · cases h
    · cases h; exact onlyChanges_writeBytes _ _ _
  | ldVxMem x =>
    refine ⟨_, exec_ldVxMem _ _, fun u e h => ?_⟩
    cases hr : s.memRead s.i (x.toNat + 1) with
    | error f => rw [hr] at h; cases h
    | ok bs => rw [hr] at h; cases h; exact onlyChanges_writeRegs _ _ _

/-- Every instruction answers a next state: the spec gives each of them an effect, a fault's record included. -/
theorem exec_next (i : Instr) (s : State) : ∃ t, exec i s = .next t := by
  cases i
  all_goals simp only [exec_sys, exec_cls, exec_ret, exec_jp, exec_call, exec_seImm, exec_sneImm, exec_seReg,
    exec_ldImm, exec_addImm, exec_ldReg, exec_orReg, exec_andReg, exec_xorReg, exec_addReg, exec_sub, exec_shr,
    exec_subn, exec_shl, exec_sneReg, exec_ldI, exec_jpV0, exec_rnd, exec_drw, exec_skp, exec_sknp,
    exec_ldVxDt, exec_ldVxK, exec_ldDtVx, exec_ldStVx, exec_addI, exec_ldF, exec_ldB, exec_ldMemVx, exec_ldVxMem]
  all_goals exact complete_next s _

/-- Everything the instruction phases of a tick can do (40_tick_cycle.md R81, P4 to P8). -/
theorem runInstruction_cases (s t : State) (h : s.runInstruction = .next t) :
    (∃ f, s.countTimers.fetch = .error f ∧ t = s.countTimers.raise f)
    ∨ (s.pc.toNat ≤ 0xFFE ∧ ∃ e, decodeWord s.opcodeAtPc = .error e
        ∧ t = s.countTimers.raise (.decodeFailure s.opcodeAtPc))
    ∨ (s.pc.toNat ≤ 0xFFE ∧ ∃ i, decodeWord s.opcodeAtPc = .ok i ∧ exec i s.countTimers = .next t) := by
  by_cases hp : s.pc.toNat ≤ 0xFFE
  · have hf : s.countTimers.fetch = .ok [s.readByte s.pc.toNat, s.readByte (s.pc.toNat + 1)] :=
      fetch_ok s.countTimers hp
    simp only [State.runInstruction, hf, decode_two] at h
    cases hd : decodeWord s.opcodeAtPc with
    | error e =>
      simp only [State.opcodeAtPc] at hd
      simp only [hd, Except.map] at h
      injection h with h
      exact .inr (.inl ⟨hp, e, rfl, h.symm⟩)
    | ok i =>
      simp only [State.opcodeAtPc] at hd
      simp only [hd, Except.map] at h
      exact .inr (.inr ⟨hp, i, rfl, h⟩)
  · obtain ⟨a, hf, -⟩ := fetch_error s.countTimers (Nat.lt_of_not_le hp)
    simp only [State.runInstruction, hf] at h
    injection h with h
    exact .inl ⟨_, hf, h.symm⟩

/-- A running machine executes the instruction whose word stands at `PC`. -/
theorem runInstruction_exec (s : State) (i : Instr) (h : s.executes i) : s.runInstruction = exec i s.countTimers := by
  obtain ⟨hp, hd⟩ := h
  have hf : s.countTimers.fetch = .ok [s.readByte s.pc.toNat, s.readByte (s.pc.toNat + 1)] :=
    fetch_ok s.countTimers hp
  simp only [State.opcodeAtPc] at hd
  simp only [State.runInstruction, hf, decode_two, hd, Except.map]

/-- Everything a tick can do (40_tick_cycle.md R81). -/
theorem tick_cases (s t : State) (k : Keys) (h : s.tick k = .next t) :
    (s.halted = true ∧ t = s)
    ∨ (s.halted = false ∧ ∃ r, s.wait = .waitingForKey r ∧ t = (s.latch k).resolveWait r)
    ∨ (s.halted = false ∧ s.wait = .running ∧ (s.latch k).runInstruction = .next t) := by
  unfold State.tick at h
  split at h
  · rename_i hh
    injection h with h
    exact .inl ⟨hh, h.symm⟩
  · rename_i hh
    have hh : s.halted = false := by simpa using hh
    split at h
    · rename_i r hr
      injection h with h
      exact .inr (.inl ⟨hh, r, hr, h.symm⟩)
    · rename_i hr
      exact .inr (.inr ⟨hh, hr, h⟩)

/-- Every tick answers a next state. -/
theorem tick_next (s : State) (k : Keys) : ∃ t, s.tick k = .next t := by
  unfold State.tick
  split
  · exact ⟨_, rfl⟩
  · split
    · exact ⟨_, rfl⟩
    · unfold State.runInstruction
      simp only
      split
      · exact ⟨_, rfl⟩
      · split
        · exact ⟨_, rfl⟩
        · exact exec_next _ _

/-! ## What a tick of a running machine does, in the terms of the claims -/

/-- A recorded fault is not safe. -/
theorem raise_not_safe (s : State) (f : Fault) : ¬ (s.raise f).safe := by
  unfold State.safe State.raise
  split
  · cases f <;> simp [Fault.cause]
  · assumption

/-- A running machine goes to its instruction. -/
theorem tick_running (s : State) (k : Keys) (hh : s.halted = false) (hw : s.wait = .running) :
    s.tick k = (s.latch k).runInstruction := by simp [State.tick, hh, hw]

/-- A running machine executes the instruction at `PC` on the state with keys latched and timers counted down. -/
theorem tick_executes (s : State) (k : Keys) (i : Instr) (hh : s.halted = false) (hw : s.wait = .running)
    (he : s.executes i) : s.tick k = exec i (s.latch k).countTimers := by
  rw [tick_running s k hh hw]; exact runInstruction_exec (s.latch k) i he

/-- The tick of a running machine executes an instruction, or raises a fault and executes none. -/
theorem tick_running_cases (s t : State) (k : Keys) (hh : s.halted = false) (hw : s.wait = .running)
    (h : s.tick k = .next t) :
    (∃ f, t = (s.latch k).countTimers.raise f ∧ ∀ i, ¬ s.executes i)
    ∨ ∃ i, s.executes i ∧ exec i (s.latch k).countTimers = .next t := by
  rw [tick_running s k hh hw] at h
  rcases runInstruction_cases _ _ h with ⟨f, hf, rfl⟩ | ⟨hp, e, he, rfl⟩ | ⟨hp, i, hi, hx⟩
  · left
    refine ⟨f, rfl, fun i hi => ?_⟩
    have hok : (s.latch k).countTimers.fetch = _ := fetch_ok (s.latch k).countTimers hi.1
    rw [hok] at hf
    cases hf
  · left
    refine ⟨_, rfl, fun i hi => ?_⟩
    have herr : decodeWord s.opcodeAtPc = .error e := he
    rw [hi.2] at herr
    cases herr
  · exact .inr ⟨i, ⟨hp, hi⟩, hx⟩

/-- A part that is not among an instruction's own, the fault record apart, is kept. -/
theorem exec_keeps (i : Instr) (s t : State) (p : Part) (h : exec i s = .next t) (hp : p ∉ writes i) (hf : p ≠ .fault) :
    p.same s t := by
  rcases exec_cases i s t h with ⟨f, rfl⟩ | h
  · exact (raise_faulted s f).2.1 p (by simpa using hf)
  · exact h p hp

/-- A part that no phase of the tick writes itself changes only by a resolved wait or by the instruction executed. -/
theorem tick_keeps (s t : State) (k : Keys) (p : Part) (h : s.tick k = .next t)
    (hp : p ∉ [Part.delay, .sound, .keys, .redraw, .fault, .keyInput]) :
    p.same s t
    ∨ (s.halted = false ∧ (∃ r, s.wait = .waitingForKey r) ∧ (p = .regs ∨ p = .wait))
    ∨ (s.halted = false ∧ s.wait = .running ∧ ∃ i, s.executes i ∧ p ∈ writes i
        ∧ exec i (s.latch k).countTimers = .next t) := by
  rcases tick_cases s t k h with ⟨-, rfl⟩ | ⟨hh, r, hr, rfl⟩ | ⟨hh, hw, -⟩
  · left; exact onlyChanges_refl [] t p (by simp)
  · by_cases hq : p = .regs ∨ p = .wait
    · exact .inr (.inl ⟨hh, ⟨r, hr⟩, hq⟩)
    · left
      unfold State.resolveWait
      split
      · cases p <;> simp_all [Part.same, State.latch, State.writeV, State.readByte]
      · cases p <;> simp_all [Part.same, State.latch, State.readByte]
  · rcases tick_running_cases s t k hh hw h with ⟨f, rfl, -⟩ | ⟨i, he, hx⟩
    · left
      have := (raise_faulted (s.latch k).countTimers f).2.1 p (by simp_all)
      cases p <;> simp_all [Part.same, State.latch, State.countTimers, State.readV, State.readByte]
    · by_cases hm : p ∈ writes i
      · exact .inr (.inr ⟨hh, hw, i, he, hm, hx⟩)
      · left
        have := exec_keeps i _ t p hx hm (by rintro rfl; simp at hp)
        cases p <;> simp_all [Part.same, State.latch, State.countTimers, State.readV, State.readByte]

/-! ## The end of a run -/

/-- A finished machine is not halted. -/
theorem finished_not_halted {s : State} (h : s.finished) : s.halted = false := by
  have hs : s.fault.cause = .noFault := h.1
  simp [State.halted, hs, Cause.fatal]

/-- A machine with a fault on record, halted or not, is at no end of a run (40_tick_cycle.md R94). -/
theorem faulted_not_finished {s : State} (h : s.fault.cause ≠ .noFault) : ¬ s.finished := fun g => h g.1

/-- A decode-failure loop is no end of a run, recorded or not (40_tick_cycle.md R94). -/
theorem notExecuted_not_finished {s : State} (h : NotExecuted s.opcodeAtPc) : ¬ s.finished := by
  rintro ⟨-, -, -, hj⟩
  rcases h with ⟨e, he⟩ | ⟨nnn, he⟩ <;> rw [he] at hj <;> cases hj

/-- A finished machine repeats its jump: it stays finished at the same `PC`, and only the timers, the snapshot and the
redraw flag still move (40_tick_cycle.md R94). -/
theorem tick_finished (s : State) (k : Keys) (h : s.finished) :
    ∃ t, s.tick k = .next t ∧ t.finished ∧ t.pc = s.pc ∧ OnlyChanges [.delay, .sound, .keys, .redraw, .keyInput] s t := by
  obtain ⟨hs, hw, hp, hd⟩ := h
  have hpc : zextAddr (s.pc.setWidth 12) = s.pc := by
    apply BitVec.eq_of_toNat_eq
    simp only [zextAddr, BitVec.toNat_setWidth]
    omega
  refine ⟨_, (tick_executes s k _ (finished_not_halted ⟨hs, hw, hp, hd⟩) hw ⟨hp, hd⟩).trans (exec_jp _ _), ?_⟩
  have ht : ((s.latch k).countTimers.applyPc (.jump (zextAddr (s.pc.setWidth 12)))) = (s.latch k).countTimers := by
    rw [hpc]; rfl
  rw [ht]
  refine ⟨⟨hs, hw, hp, hd⟩, rfl, fun p hp => ?_⟩
  cases p <;> simp_all [Part.same, State.latch, State.countTimers, State.readV, State.readByte]

/-- And so after any number of ticks. -/
theorem ticks_finished (ks : List Keys) (s : State) (h : s.finished) :
    ∃ t, s.ticks ks = .next t ∧ t.finished ∧ t.pc = s.pc
      ∧ OnlyChanges [.delay, .sound, .keys, .redraw, .keyInput] s t := by
  induction ks generalizing s with
  | nil => exact ⟨s, rfl, h, rfl, onlyChanges_refl _ _⟩
  | cons k ks ih =>
    obtain ⟨t, ht, hf, hpc, ho⟩ := tick_finished s k h
    obtain ⟨u, hu, hg, hpd, hq⟩ := ih t hf
    exact ⟨u, by simp only [State.ticks, ht, hu], hg, hpd.trans hpc, onlyChanges_trans ho hq⟩

end Sys2Proof.Machine
end

