-- ==== Sys2Proof/Laws/PerInstr.lean ====
section
/-!
SUPPORT. The laws stated of every instruction as syntax, one lemma per constructor.
-/

namespace Sys2Proof.Laws.MatchesRow

/-- The word of an instruction selects its row of the opcode table (30_encoding.md R64). -/
def Statement (i : Instr) : Prop := encode i &&& i.row.mask = i.row.bits

theorem sys (nnn : Addr12) : Statement (.sys nnn) := by
  simp only [Statement, encode, Instr.row, encodeA_class]; decide
theorem cls : Statement .cls := by
  simp only [Statement, encode, Instr.row]; decide
theorem ret : Statement .ret := by
  simp only [Statement, encode, Instr.row]; decide
theorem jp (nnn : Addr12) : Statement (.jp nnn) := by
  simp only [Statement, encode, Instr.row, encodeA_class]; decide
theorem call (nnn : Addr12) : Statement (.call nnn) := by
  simp only [Statement, encode, Instr.row, encodeA_class]; decide
theorem seImm (x : Nibble) (kk : Byte) : Statement (.seImm x kk) := by
  simp only [Statement, encode, Instr.row, encodeXK_class]; decide
theorem sneImm (x : Nibble) (kk : Byte) : Statement (.sneImm x kk) := by
  simp only [Statement, encode, Instr.row, encodeXK_class]; decide
theorem seReg (x y : Nibble) : Statement (.seReg x y) := by
  simp only [Statement, encode, Instr.row, encodeXY_low]; decide
theorem ldImm (x : Nibble) (kk : Byte) : Statement (.ldImm x kk) := by
  simp only [Statement, encode, Instr.row, encodeXK_class]; decide
theorem addImm (x : Nibble) (kk : Byte) : Statement (.addImm x kk) := by
  simp only [Statement, encode, Instr.row, encodeXK_class]; decide
theorem ldReg (x y : Nibble) : Statement (.ldReg x y) := by
  simp only [Statement, encode, Instr.row, encodeXY_low]; decide
theorem orReg (x y : Nibble) : Statement (.orReg x y) := by
  simp only [Statement, encode, Instr.row, encodeXY_low]; decide
theorem andReg (x y : Nibble) : Statement (.andReg x y) := by
  simp only [Statement, encode, Instr.row, encodeXY_low]; decide
theorem xorReg (x y : Nibble) : Statement (.xorReg x y) := by
  simp only [Statement, encode, Instr.row, encodeXY_low]; decide
theorem addReg (x y : Nibble) : Statement (.addReg x y) := by
  simp only [Statement, encode, Instr.row, encodeXY_low]; decide
theorem sub (x y : Nibble) : Statement (.sub x y) := by
  simp only [Statement, encode, Instr.row, encodeXY_low]; decide
theorem shr (x y : Nibble) : Statement (.shr x y) := by
  simp only [Statement, encode, Instr.row, encodeXY_low]; decide
theorem subn (x y : Nibble) : Statement (.subn x y) := by
  simp only [Statement, encode, Instr.row, encodeXY_low]; decide
theorem shl (x y : Nibble) : Statement (.shl x y) := by
  simp only [Statement, encode, Instr.row, encodeXY_low]; decide
theorem sneReg (x y : Nibble) : Statement (.sneReg x y) := by
  simp only [Statement, encode, Instr.row, encodeXY_low]; decide
theorem ldI (nnn : Addr12) : Statement (.ldI nnn) := by
  simp only [Statement, encode, Instr.row, encodeA_class]; decide
theorem jpV0 (nnn : Addr12) : Statement (.jpV0 nnn) := by
  simp only [Statement, encode, Instr.row, encodeA_class]; decide
theorem rnd (x : Nibble) (kk : Byte) : Statement (.rnd x kk) := by
  simp only [Statement, encode, Instr.row, encodeXK_class]; decide
theorem drw (x y n : Nibble) : Statement (.drw x y n) := by
  simp only [Statement, encode, Instr.row, encodeXY_class]; decide
theorem skp (x : Nibble) : Statement (.skp x) := by
  simp only [Statement, encode, Instr.row, encodeXK_low]; decide
theorem sknp (x : Nibble) : Statement (.sknp x) := by
  simp only [Statement, encode, Instr.row, encodeXK_low]; decide
theorem ldVxDt (x : Nibble) : Statement (.ldVxDt x) := by
  simp only [Statement, encode, Instr.row, encodeXK_low]; decide
theorem ldVxK (x : Nibble) : Statement (.ldVxK x) := by
  simp only [Statement, encode, Instr.row, encodeXK_low]; decide
theorem ldDtVx (x : Nibble) : Statement (.ldDtVx x) := by
  simp only [Statement, encode, Instr.row, encodeXK_low]; decide
theorem ldStVx (x : Nibble) : Statement (.ldStVx x) := by
  simp only [Statement, encode, Instr.row, encodeXK_low]; decide
theorem addI (x : Nibble) : Statement (.addI x) := by
  simp only [Statement, encode, Instr.row, encodeXK_low]; decide
theorem ldF (x : Nibble) : Statement (.ldF x) := by
  simp only [Statement, encode, Instr.row, encodeXK_low]; decide
theorem ldB (x : Nibble) : Statement (.ldB x) := by
  simp only [Statement, encode, Instr.row, encodeXK_low]; decide
theorem ldMemVx (x : Nibble) : Statement (.ldMemVx x) := by
  simp only [Statement, encode, Instr.row, encodeXK_low]; decide
theorem ldVxMem (x : Nibble) : Statement (.ldVxMem x) := by
  simp only [Statement, encode, Instr.row, encodeXK_low]; decide

end Sys2Proof.Laws.MatchesRow
end

