-- ==== Sys2Proof/Tests/Slice0.lean ====
section
/-!
SUPPORT. Tests: the well-formedness smoke, one written-out word per constructor, single ticks whose expected results are
the vectors of 95_test_vectors.md (named in each comment), and a witness for the hypotheses of each statement.
-/

namespace Sys2Proof.Tests

open Sys2Proof.Machine

/-! ## Well-formedness: the one check, and its ill-formed terms -/

theorem test_wellFormed_refuses_sys_of_cls : (Instr.sys 0x0E0#12).wellFormed = false := by decide
theorem test_wellFormed_refuses_sys_of_ret : (Instr.sys 0x0EE#12).wellFormed = false := by decide
theorem test_wellFormed_accepts_other_sys :
    (Instr.sys 0x000#12).wellFormed = true ∧ (Instr.sys 0x0E1#12).wellFormed = true
      ∧ (Instr.sys 0xFFF#12).wellFormed = true := by decide

/-! ## Decoding: one word per constructor, written out from the patterns of 30_encoding.md R64 -/

theorem test_decode_sys : decodeWord 0b0000000100100011#16 = .ok (.sys 0x123#12) := by decide
theorem test_decode_cls : decodeWord 0b0000000011100000#16 = .ok .cls := by decide
theorem test_decode_ret : decodeWord 0b0000000011101110#16 = .ok .ret := by decide
theorem test_decode_jp : decodeWord 0b0001001010100000#16 = .ok (.jp 0x2A0#12) := by decide
theorem test_decode_call : decodeWord 0b0010001100000000#16 = .ok (.call 0x300#12) := by decide
theorem test_decode_seImm : decodeWord 0b0011101000000101#16 = .ok (.seImm 0xA#4 0x05#8) := by decide
theorem test_decode_sneImm : decodeWord 0b0100101000000101#16 = .ok (.sneImm 0xA#4 0x05#8) := by decide
theorem test_decode_seReg : decodeWord 0b0101000100100000#16 = .ok (.seReg 1#4 2#4) := by decide
theorem test_decode_ldImm : decodeWord 0b0110001101111111#16 = .ok (.ldImm 3#4 0x7F#8) := by decide
theorem test_decode_addImm : decodeWord 0b0111101000000011#16 = .ok (.addImm 0xA#4 0x03#8) := by decide
theorem test_decode_ldReg : decodeWord 0b1000000100100000#16 = .ok (.ldReg 1#4 2#4) := by decide
theorem test_decode_orReg : decodeWord 0b1000000100100001#16 = .ok (.orReg 1#4 2#4) := by decide
theorem test_decode_andReg : decodeWord 0b1000000100100010#16 = .ok (.andReg 1#4 2#4) := by decide
theorem test_decode_xorReg : decodeWord 0b1000000100100011#16 = .ok (.xorReg 1#4 2#4) := by decide
theorem test_decode_addReg : decodeWord 0b1000000100100100#16 = .ok (.addReg 1#4 2#4) := by decide
theorem test_decode_sub : decodeWord 0b1000000100100101#16 = .ok (.sub 1#4 2#4) := by decide
theorem test_decode_shr : decodeWord 0b1000101010110110#16 = .ok (.shr 0xA#4 0xB#4) := by decide
theorem test_decode_subn : decodeWord 0b1000000100100111#16 = .ok (.subn 1#4 2#4) := by decide
theorem test_decode_shl : decodeWord 0b1000000100101110#16 = .ok (.shl 1#4 2#4) := by decide
theorem test_decode_sneReg : decodeWord 0b1001000100100000#16 = .ok (.sneReg 1#4 2#4) := by decide
theorem test_decode_ldI : decodeWord 0b1010001011110000#16 = .ok (.ldI 0x2F0#12) := by decide
theorem test_decode_jpV0 : decodeWord 0b1011001100000000#16 = .ok (.jpV0 0x300#12) := by decide
theorem test_decode_rnd : decodeWord 0b1100000100001111#16 = .ok (.rnd 1#4 0x0F#8) := by decide
theorem test_decode_drw : decodeWord 0b1101000100100101#16 = .ok (.drw 1#4 2#4 5#4) := by decide
theorem test_decode_skp : decodeWord 0b1110000110011110#16 = .ok (.skp 1#4) := by decide
theorem test_decode_sknp : decodeWord 0b1110000110100001#16 = .ok (.sknp 1#4) := by decide
theorem test_decode_ldVxDt : decodeWord 0b1111001100000111#16 = .ok (.ldVxDt 3#4) := by decide
theorem test_decode_ldVxK : decodeWord 0b1111010100001010#16 = .ok (.ldVxK 5#4) := by decide
theorem test_decode_ldDtVx : decodeWord 0b1111001000010101#16 = .ok (.ldDtVx 2#4) := by decide
theorem test_decode_ldStVx : decodeWord 0b1111001000011000#16 = .ok (.ldStVx 2#4) := by decide
theorem test_decode_addI : decodeWord 0b1111001100011110#16 = .ok (.addI 3#4) := by decide
theorem test_decode_ldF : decodeWord 0b1111000100101001#16 = .ok (.ldF 1#4) := by decide
theorem test_decode_ldB : decodeWord 0b1111000000110011#16 = .ok (.ldB 0#4) := by decide
theorem test_decode_ldMemVx : decodeWord 0b1111111101010101#16 = .ok (.ldMemVx 0xF#4) := by decide
theorem test_decode_ldVxMem : decodeWord 0b1111000101100101#16 = .ok (.ldVxMem 1#4) := by decide

/-- Vector E6: unknown words. -/
theorem test_decode_unknown :
    ([0x5121#16, 0x8128#16, 0x812F#16, 0x9121#16, 0xE100#16, 0xE19F#16, 0xF1FF#16, 0xF100#16, 0xFFFF#16].all
      fun w => (decodeWord w).toOption.isNone) = true := by decide

/-- The host's question of the decoder, on the word of vector E1. -/
theorem test_decodeTableWord : decodeTableWord 16 0xD125 = some (.drw 1#4 2#4 5#4) := by decide

/-- The mnemonics stand for the table's rows: 35 of them, with pairwise different ids. -/
theorem test_opcodeTable : opcodeTable.length = 35 ∧ (opcodeTable.map OpRow.id).Nodup := by decide

/-! ## Single ticks -/

/-- The start of the vectors: the launch state of an empty image, no key down. -/
def start : State := { State.reset with pc := 0x200#16 }

/-- The start with `VF_WRITE_ORDER = flag_first`. -/
def startFirst : State := { start with cfg := { start.cfg with vfWriteOrder := .flagFirst } }

/-- One tick with these keys down and this opcode at `PC`, and what is looked at of the state after it. -/
def after {α : Type} (s : State) (w : Word) (keys : Keys) (look : State → α) : Option α :=
  match (s.placeOpcode w).tick keys with
  | .next t => some (look t)
  | _ => none

/-- A recorded fault as cause, info and `PC`. -/
def record (c : Cause) (info pc : Word) : FaultRecord := { cause := c, info := info, pc := pc }

/-- The host's question of the step: a placed instruction runs as the first one after reset. -/
theorem test_first_step : (match step (State.reset.withFetchWord 16 0x6A2B) with
    | .next t => t.readV 0xA#4 == 0x2B#8 && t.pc == 2#16
    | _ => false) = true := by decide
/-- C18. -/
theorem test_sys : after { start with pc := 0x300#16 } 0x0000#16 0 (fun t => (t.fault, t.pc))
    = some (record .decodeFailure 0 0x300#16, 0x300#16) := by decide
/-- G13, with one lit pixel. -/
theorem test_cls : after { start with fb := start.fb.set 31 (1#64 <<< 63) } 0x00E0#16 0
    (fun t => (t.fbOut 63 31, t.redraw, t.pc)) = some (false, true, 0x202#16) := by decide
/-- C7. -/
theorem test_ret_underflow : after { start with pc := 0x300#16 } 0x00EE#16 0 (fun t => (t.fault, t.pc))
    = some (record .stackUnderflow 0 0x300#16, 0x300#16) := by decide
/-- C8. -/
theorem test_ret : after { start with pc := 0x300#16, sp := 1#4, stack := start.stack.set 0 0x204#16 } 0x00EE#16 0
    (fun t => (t.sp, t.pc)) = some (0#4, 0x206#16) := by decide
/-- C1. -/
theorem test_jp : after start 0x1234#16 0 State.pc = some 0x234#16 := by decide
/-- C5. -/
theorem test_call : after { start with sp := 14#4 } 0x2300#16 0 (fun t => (t.stack[14], t.sp, t.pc))
    = some (0x200#16, 15#4, 0x300#16) := by decide
/-- C6. -/
theorem test_call_overflow : after { start with sp := 15#4 } 0x2300#16 0 (fun t => (t.fault, t.sp, t.pc, t.stack[15]))
    = some (record .stackOverflow 0x300#16 0x200#16, 15#4, 0x200#16, 0#16) := by decide
/-- C10. -/
theorem test_seImm : after (start.writeV 0xA#4 5#8) 0x3A05#16 0 State.pc = some 0x204#16
    ∧ after (start.writeV 0xA#4 6#8) 0x3A05#16 0 State.pc = some 0x202#16 := by decide
/-- C11. -/
theorem test_sneImm : after (start.writeV 0xA#4 5#8) 0x4A05#16 0 State.pc = some 0x202#16
    ∧ after (start.writeV 0xA#4 6#8) 0x4A05#16 0 State.pc = some 0x204#16 := by decide
/-- C12. -/
theorem test_seReg : after ((start.writeV 1#4 7#8).writeV 2#4 7#8) 0x5120#16 0 State.pc = some 0x204#16
    ∧ after ((start.writeV 1#4 7#8).writeV 2#4 8#8) 0x5120#16 0 State.pc = some 0x202#16 := by decide
/-- C14. -/
theorem test_sneReg : after ((start.writeV 1#4 7#8).writeV 2#4 8#8) 0x9120#16 0 State.pc = some 0x204#16
    ∧ after ((start.writeV 1#4 7#8).writeV 2#4 7#8) 0x9120#16 0 State.pc = some 0x202#16 := by decide
/-- C17: the sum is not reduced to 12 bits. -/
theorem test_jpV0 : after (start.writeV 0#4 0xFF#8) 0xBFFF#16 0 State.pc = some 0x10FE#16 := by decide
/-- A30. -/
theorem test_ldImm : after start 0x6A2B#16 0 (fun t => t.readV 0xA#4) = some 0x2B#8 := by decide
/-- A31. -/
theorem test_addImm : after ((start.writeV 0xA#4 0xFE#8).writeV 0xF#4 7#8) 0x7A03#16 0
    (fun t => (t.readV 0xA#4, t.readV 0xF#4)) = some (1#8, 7#8) := by decide
/-- A33. -/
theorem test_ldReg : after (start.writeV 2#4 9#8) 0x8120#16 0 (fun t => t.readV 1#4) = some 9#8 := by decide
/-- A34. -/
theorem test_orReg : after (((start.writeV 1#4 0xF0#8).writeV 2#4 0x0F#8).writeV 0xF#4 0xAA#8) 0x8121#16 0
    (fun t => (t.readV 1#4, t.readV 0xF#4)) = some (0xFF#8, 0xAA#8) := by decide
/-- A35. -/
theorem test_andReg : after (((start.writeV 1#4 0xF3#8).writeV 2#4 0x3F#8).writeV 0xF#4 0xAA#8) 0x8122#16 0
    (fun t => (t.readV 1#4, t.readV 0xF#4)) = some (0x33#8, 0xAA#8) := by decide
/-- A36. -/
theorem test_xorReg : after (((start.writeV 1#4 0xFF#8).writeV 2#4 0x0F#8).writeV 0xF#4 0xAA#8) 0x8123#16 0
    (fun t => (t.readV 1#4, t.readV 0xF#4)) = some (0xF0#8, 0xAA#8) := by decide
/-- A1. -/
theorem test_addReg : after ((start.writeV 0#4 0x10#8).writeV 1#4 0xFF#8) 0x8014#16 0
    (fun t => (t.readV 0#4, t.readV 0xF#4)) = some (0x0F#8, 1#8) := by decide
/-- A6, both orders. -/
theorem test_addReg_vf : after ((start.writeV 0xF#4 0xF0#8).writeV 1#4 0x20#8) 0x8F14#16 0 (fun t => t.readV 0xF#4)
      = some 1#8
    ∧ after ((startFirst.writeV 0xF#4 0xF0#8).writeV 1#4 0x20#8) 0x8F14#16 0 (fun t => t.readV 0xF#4)
      = some 0x21#8 := by decide
/-- A11: equal operands give flag 0. -/
theorem test_sub : after (((start.writeV 0#4 0x33#8).writeV 1#4 0x33#8).writeV 0xF#4 1#8) 0x8015#16 0
    (fun t => (t.readV 0#4, t.readV 0xF#4)) = some (0#8, 0#8) := by decide
/-- A15, `flag_first`. -/
theorem test_sub_vf : after ((startFirst.writeV 0#4 0x30#8).writeV 0xF#4 0x10#8) 0x80F5#16 0
    (fun t => (t.readV 0#4, t.readV 0xF#4)) = some (0x2F#8, 1#8) := by decide
/-- A21: the other register is neither read nor written. -/
theorem test_shr : after ((start.writeV 0#4 0xFF#8).writeV 1#4 0x22#8) 0x8016#16 0
    (fun t => (t.readV 0#4, t.readV 1#4, t.readV 0xF#4)) = some (0x7F#8, 0x22#8, 1#8) := by decide
/-- A25, both orders. -/
theorem test_shr_vf : after (start.writeV 0xF#4 7#8) 0x8F06#16 0 (fun t => t.readV 0xF#4) = some 1#8
    ∧ after (startFirst.writeV 0xF#4 7#8) 0x8F06#16 0 (fun t => t.readV 0xF#4) = some 0#8 := by decide
/-- A16. -/
theorem test_subn : after ((start.writeV 0#4 0x10#8).writeV 1#4 0x20#8) 0x8017#16 0
    (fun t => (t.readV 0#4, t.readV 0xF#4)) = some (0x10#8, 1#8) := by decide
/-- A20, `flag_first`. -/
theorem test_subn_vf : after ((startFirst.writeV 0#4 0x10#8).writeV 0xF#4 0x30#8) 0x80F7#16 0
    (fun t => (t.readV 0#4, t.readV 0xF#4)) = some (0xF1#8, 1#8) := by decide
/-- A26. -/
theorem test_shl : after (start.writeV 1#4 0xC1#8) 0x810E#16 0 (fun t => (t.readV 1#4, t.readV 0xF#4))
    = some (0x82#8, 1#8) := by decide
/-- A29, both orders. -/
theorem test_shl_vf : after (start.writeV 0xF#4 0x81#8) 0x8F0E#16 0 (fun t => t.readV 0xF#4) = some 1#8
    ∧ after (startFirst.writeV 0xF#4 0x81#8) 0x8F0E#16 0 (fun t => t.readV 0xF#4) = some 2#8 := by decide
/-- A38. -/
theorem test_rnd : after ({ start with rndBytes := [0xA7#8] }.writeV 0xF#4 9#8) 0xC10F#16 0
    (fun t => (t.readV 1#4, t.readV 0xF#4)) = some (7#8, 9#8) := by decide
/-- M1. -/
theorem test_ldI : after start 0xA2F0#16 0 State.i = some 0x2F0#16 := by decide
/-- M2b. -/
theorem test_addI : after ({ start with i := 0xFFFF#16 }.writeV 3#4 0xFF#8) 0xF31E#16 0
    (fun t => (t.i, t.readV 0xF#4)) = some (0xFE#16, 0#8) := by decide
/-- M3 and M5: both glyph bases. -/
theorem test_ldF : after (start.writeV 1#4 0x0A#8) 0xF129#16 0 State.i = some 0x82#16
    ∧ after ({ start with cfg := { start.cfg with fontBase := .at000 } }.writeV 1#4 0x0A#8) 0xF129#16 0 State.i
      = some 0x32#16 := by decide
/-- M6. -/
theorem test_ldF_range : after ({ start with i := 0x123#16 }.writeV 1#4 0x10#8) 0xF129#16 0
    (fun t => (t.fault, t.i, t.pc)) = some (record .glyphIndexRange 0x10#16 0x200#16, 0x123#16, 0x200#16) := by decide
/-- M9. -/
theorem test_ldB : after ({ start with i := 0xFFD#16 }.writeV 0#4 0x7B#8) 0xF033#16 0
    (fun t => (t.readByte 0xFFD, t.readByte 0xFFE, t.readByte 0xFFF)) = some (1#8, 2#8, 3#8) := by decide
/-- M10. -/
theorem test_ldB_range : after ({ start with i := 0xFFE#16 }.writeV 0#4 0x7B#8) 0xF033#16 0
    (fun t => (t.fault, t.readByte 0xFFE)) = some (record .memRange 0x1000#16 0x200#16, 0#8) := by decide
/-- M12, with two registers. -/
theorem test_ldMemVx : after (({ start with i := 0x300#16 }.writeV 0#4 1#8).writeV 1#4 2#8) 0xF055#16 0
    (fun t => (t.readByte 0x300, t.readByte 0x301, t.i)) = some (1#8, 0#8, 0x300#16) := by decide
/-- M14. -/
theorem test_ldMemVx_range : after ({ start with i := 0xFFF#16 }.writeV 0#4 0xAB#8) 0xF155#16 0
    (fun t => (t.fault, t.readByte 0xFFF)) = some (record .memRange 0x1000#16 0x200#16, 0#8) := by decide
/-- M16. -/
theorem test_ldVxMem : after ({ start with i := 0x300#16, mem := [(0x300, 0xAA#8), (0x301, 0xBB#8), (0x302, 0xCC#8)] }.writeV
    2#4 0x11#8) 0xF165#16 0 (fun t => (t.readV 0#4, t.readV 1#4, t.readV 2#4, t.i))
    = some (0xAA#8, 0xBB#8, 0x11#8, 0x300#16) := by decide
/-- M17. -/
theorem test_ldVxMem_range : after ({ start with i := 0xFFF#16, mem := [(0xFFF, 0xAA#8)] }.writeV 0#4 1#8) 0xF165#16 0
    (fun t => (t.fault, t.readV 0#4)) = some (record .memRange 0x1000#16 0x200#16, 1#8) := by decide
/-- G8: wraparound in both directions. -/
theorem test_drw : after (({ start with i := 0x300#16, mem := [(0x300, 0xC0#8)] }.writeV 0#4 0xFF#8).writeV 1#4 0xFF#8)
    0xD011#16 0 (fun t => (t.fb[31], t.readV 0xF#4, t.redraw)) = some (0x8000000000000001#64, 0#8, true) := by decide
/-- G3, the first row: a collision. -/
theorem test_drw_collision : after { start with i := 0x300#16, mem := [(0x300, 0xF0#8)], fb := start.fb.set 0 1#64 }
    0xD011#16 0 (fun t => (t.fb[0], t.readV 0xF#4)) = some (0xE#64, 1#8) := by decide
/-- K1. -/
theorem test_skp : after (start.writeV 1#4 4#8) 0xE19E#16 0x10#16 State.pc = some 0x204#16
    ∧ after (start.writeV 1#4 4#8) 0xE19E#16 0x20#16 State.pc = some 0x202#16 := by decide
/-- K4. -/
theorem test_skp_range : after (start.writeV 1#4 0x10#8) 0xE19E#16 1#16 (fun t => (t.fault, t.pc))
    = some (record .keyIndexRange 0x10#16 0x200#16, 0x200#16) := by decide
/-- K2. -/
theorem test_sknp : after (start.writeV 1#4 4#8) 0xE1A1#16 0x10#16 State.pc = some 0x202#16
    ∧ after (start.writeV 1#4 4#8) 0xE1A1#16 0 State.pc = some 0x204#16 := by decide
/-- K5. -/
theorem test_sknp_range : after (start.writeV 1#4 0xFF#8) 0xE1A1#16 0 State.fault
    = some (record .keyIndexRange 0xFF#16 0x200#16) := by decide
/-- T1: the timer is read after its decrement. -/
theorem test_ldVxDt : after { start with dt := 10#8 } 0xF307#16 0 (fun t => (t.dt, t.readV 3#4)) = some (9#8, 9#8) := by
  decide
/-- K8. -/
theorem test_ldVxK : after start 0xF50A#16 8#16 (fun t => (t.wait, t.readV 5#4, t.pc))
    = some (.waitingForKey 5#4, 0#8, 0x202#16) := by decide
/-- K6. -/
theorem test_ldDtVx : after ({ start with dt := 7#8 }.writeV 2#4 0x3C#8) 0xF215#16 0 State.dt = some 0x3C#8 := by decide
/-- T4: decremented, then overwritten. -/
theorem test_ldStVx : after ({ start with st := 9#8 }.writeV 2#4 3#8) 0xF218#16 0 State.st = some 3#8 := by decide
/-- T6. -/
theorem test_fetch_range : (match ({ start with pc := 0xFFF#16 } : State).tick 0 with
    | .next t => t.fault == record .memRange 0x1000#16 0xFFF#16 && t.pc == 0xFFF#16
    | _ => false) = true := by decide
/-- T11. -/
theorem test_wait : (match ({ start with wait := .waitingForKey 4#4, dt := 4#8 } : State).tick 0x204#16 with
    | .next t => t.readV 4#4 == 2#8 && t.wait == .running && t.dt == 4#8 && t.pc == 0x200#16
    | _ => false) = true := by decide

/-- C2: a self-jump is an end of the run, and is one again after its tick. -/
theorem test_finished : (start.placeOpcode 0x1200#16).finished ∧ after (start.placeOpcode 0x1200#16) 0x1200#16 1#16
    (fun t => decide (t.pc = 0x200#16 ∧ t.wait = .running ∧ t.fault.cause = .noFault ∧ t.opcodeAtPc = 0x1200#16))
    = some true := ⟨⟨rfl, rfl, by decide, by decide⟩, by decide⟩
/-- R94: a jump elsewhere, a wait, a halted machine and a decode failure are no end, even at a self-jump. -/
theorem test_not_finished : ¬ (start.placeOpcode 0x1202#16).finished
    ∧ ¬ ({ start.placeOpcode 0x1200#16 with wait := .waitingForKey 0#4 } : State).finished
    ∧ ¬ ({ start.placeOpcode 0x1200#16 with fault := record .stackUnderflow 0 0x200#16 } : State).finished
    ∧ ¬ ({ start.placeOpcode 0x1200#16 with fault := record .decodeFailure 0 0x200#16 } : State).finished :=
  ⟨fun h => absurd h.2.2.2 (by decide), fun h => absurd h.2.1 (by decide),
    faulted_not_finished (by decide), faulted_not_finished (by decide)⟩

/-! ## Witnesses: for each statement with hypotheses, states and operands that meet them, clause by clause -/

/-- The state after a tick, for witnesses whose hypotheses name it. -/
def ticked (s : State) (k : Keys) : State := match s.tick k with | .next t => t | _ => s

/-- The state after an instruction, for witnesses whose hypotheses name it. -/
def done (i : Instr) (s : State) : State := match exec i s with | .next t => t | _ => s

theorem tick_ticked (s : State) (k : Keys) : s.tick k = .next (ticked s k) := by
  obtain ⟨t, h⟩ := tick_next s k
  simp [ticked, h]

theorem exec_done (i : Instr) (s : State) : exec i s = .next (done i s) := by
  obtain ⟨t, h⟩ := exec_next i s
  simp [done, h]

/-- A machine with a decode failure on record, standing at an unknown word. -/
def failed : State := { (start.placeOpcode 0x5121#16) with fault := record .decodeFailure 0x5121#16 0x200#16 }

/-- A halted machine. -/
def halted : State := { start with fault := record .stackUnderflow 0 0x200#16 }

theorem witness_DecodeReadsBackEveryInstruction :
    (Instr.sys 0xFFF#12).wellFormed = true ∧ (Instr.drw 0xF#4 0#4 0xF#4).wellFormed = true := by decide
theorem witness_DecodedWordsEncodeBack : decodeWord 0xFF65#16 = .ok (.ldVxMem 0xF#4) ∧ decodeWord 0x0000#16 = .ok (.sys 0#12) := by
  decide
theorem witness_DecoderSelectsTheRowOfTheTable :
    decodeWord 0x00E0#16 = .ok .cls
    ∧ (Instr.cls.row ∈ opcodeTable ∧ 0x00E0#16 &&& Instr.cls.row.mask = Instr.cls.row.bits ∧ Instr.cls.row.id ≠ "sys")
    ∧ (0x00E1#16 &&& 0xF000#16 = 0x0000#16 ∧ 0x00E1#16 ≠ 0x00E0#16 ∧ 0x00E1#16 ≠ 0x00EE#16)
    ∧ ((Instr.sys 0#12).row ∈ opcodeTable ∧ 0x00E0#16 &&& (Instr.sys 0#12).row.mask = (Instr.sys 0#12).row.bits) := by
  decide
theorem witness_EveryInstructionIsTwoBytes : decode [0xD1#8, 0x25#8, 0x07#8] = .ok (.drw 1#4 2#4 5#4, [0x07#8]) := by decide
theorem witness_StepIsTheTickOfTheHost :
    ({ start with keyArgs := [3#16, 0#16] } : State).keyArgs = 3#16 :: [0#16] ∧ start.keyArgs = [] := by decide
theorem witness_StepRunsTheDecodedInstruction :
    let s : State := { start with pc := 0xFFE#16 }.placeOpcode 0x6A2B#16
    s.halted = false ∧ s.wait = .running ∧ s.pc.toNat ≤ 0xFFE
    ∧ decode [s.readByte s.pc.toNat, s.readByte (s.pc.toNat + 1)] = .ok (.ldImm 0xA#4 0x2B#8, []) := by decide
theorem witness_PlacedOpcodeRunsNext :
    decodeWord 0x00EE#16 = .ok .ret ∧ halted.pc.toNat ≤ 0xFFE ∧ ¬ ({ start with pc := 0xFFF#16 } : State).pc.toNat ≤ 0xFFE := by
  decide
theorem witness_HaltedMachineNeverChanges : 2 ≤ halted.fault.cause.code := by decide
/-- The lowest and the highest key alone, and no key. -/
theorem witness_WaitResolvesOrHolds :
    let s : State := { start with wait := .waitingForKey 0xF#4 }
    s.halted = false ∧ s.wait = .waitingForKey 0xF#4
    ∧ ((0x8000#16 : Keys).getLsbD 15 = true ∧ ∀ j, j < 15 → (0x8000#16 : Keys).getLsbD j = false)
    ∧ (0xFFFF#16 : Keys).getLsbD 0 = true ∧ (0#16 : Keys) = 0#16 := by decide
theorem witness_SnapshotIsReplacedEachTick :
    let s : State := (start.placeOpcode 0xE19E#16).writeV 1#4 15#8
    let t : State := start.placeOpcode 0xE1A1#16
    (s.halted = false ∧ s.tick 1 = .next (ticked s 1) ∧ s.wait = .running ∧ (s.readV 1#4).toNat ≤ 15 ∧ s.executes (.skp 1#4))
    ∧ t.halted = false ∧ t.tick 1 = .next (ticked t 1) ∧ t.wait = .running ∧ (t.readV 1#4).toNat ≤ 15
      ∧ t.executes (.sknp 1#4) :=
  ⟨⟨by decide, tick_ticked _ _, by decide, by decide, by decide, by decide⟩,
    by decide, tick_ticked _ _, by decide, by decide, by decide, by decide⟩
/-- A timer at zero and one at 255 in ticks that write neither; ticks that read and write them; and a waiting tick. -/
theorem witness_TimersCountDownOncePerExecutingTick :
    let s : State := { start with dt := 0xFF#8 }
    let w : State := { start with wait := .waitingForKey 0#4, dt := 1#8 }
    (s.halted = false ∧ s.tick 0 = .next (ticked s 0) ∧ s.wait = .running ∧ s.st = 0#8
      ∧ (∀ x, ¬ s.executes (.ldDtVx x)) ∧ ∀ x, ¬ s.executes (.ldStVx x))
    ∧ ((start.placeOpcode 0xF307#16).executes (.ldVxDt 3#4) ∧ (start.placeOpcode 0xF215#16).executes (.ldDtVx 2#4)
      ∧ (start.placeOpcode 0xF218#16).executes (.ldStVx 2#4))
    ∧ w.halted = false ∧ w.tick 0 = .next (ticked w 0) ∧ w.wait = .waitingForKey 0#4 := by
  refine ⟨⟨rfl, tick_ticked _ _, rfl, rfl, ?_, ?_⟩, ⟨⟨by decide, by decide⟩, ⟨by decide, by decide⟩, ⟨by decide, by decide⟩⟩,
    rfl, tick_ticked _ _, rfl⟩
  all_goals
    rintro x ⟨-, h⟩
    have hs : decodeWord ({ start with dt := 0xFF#8 } : State).opcodeAtPc = .ok (.sys 0#12) := by decide
    rw [hs] at h
    cases h
/-- One safe completion for each kind of PC effect: a jump, a call, a return, JP V0, a skip, an advance. -/
def completing : List (Instr × State) :=
  [(.jp 0xFFF#12, start), (.call 0#12, { start with sp := 14#4 }), (.ret, { start with sp := 1#4 }), (.jpV0 0xFFF#12, start),
    (.seImm 0#4 0#8, start), (.sneReg 0#4 0#4, start), (.skp 0#4, start.writeV 0#4 15#8), (.ldVxK 0#4, start), (.drw 0#4 0#4 0#4, start)]
theorem witness_EveryInstructionHasItsPcEffect : ∀ p ∈ completing,
    p.2.safe ∧ exec p.1 p.2 = .next (done p.1 p.2) ∧ (done p.1 p.2).safe := by
  have h : ∀ p ∈ completing, p.2.fault.cause = .noFault ∧ (done p.1 p.2).fault.cause = .noFault := by decide
  exact fun p hp => ⟨(h p hp).1, exec_done _ _, (h p hp).2⟩
theorem witness_DecodeFailureTick :
    (start.halted = false ∧ start.wait = .running ∧ start.pc.toNat ≤ 0xFFE ∧ NotExecuted start.opcodeAtPc
      ∧ start.fault.cause = .noFault)
    ∧ failed.halted = false ∧ failed.wait = .running ∧ failed.pc.toNat ≤ 0xFFE ∧ NotExecuted failed.opcodeAtPc
      ∧ failed.fault.cause ≠ .noFault :=
  ⟨⟨by decide, by decide, by decide, .inr ⟨0#12, by decide⟩, by decide⟩,
    by decide, by decide, by decide, .inl ⟨.unknownClass5, by decide⟩, by decide⟩
theorem witness_DecodeFailureRecursOnEveryTick :
    let s : State := { start with pc := 0xFFE#16, dt := 1#8 }.placeOpcode 0xFFFF#16
    [0#16, 1#16, 0#16] ≠ ([] : List Keys) ∧ s.fault.cause = .noFault ∧ s.wait = .running ∧ s.pc.toNat ≤ 0xFFE
    ∧ NotExecuted s.opcodeAtPc :=
  ⟨by decide, by decide, by decide, by decide, .inl ⟨.unknownClassF, by decide⟩⟩
theorem witness_FetchOutOfRangeRaisesMemRange :
    let s : State := { start with pc := 0xFFF#16 }
    let t : State := { failed with pc := 0x1000#16 }
    (s.halted = false ∧ s.wait = .running ∧ s.pc.toNat > 0xFFE ∧ s.fault.cause = .noFault)
    ∧ t.halted = false ∧ t.wait = .running ∧ t.pc.toNat > 0xFFE ∧ t.fault.cause ≠ .noFault := by decide
theorem witness_FaultRecordIsSticky : failed.tick 0 = .next (ticked failed 0) ∧ failed.fault.cause ≠ .noFault :=
  ⟨tick_ticked _ _, by decide⟩
theorem witness_FaultingTickIsPrecise : start.tick 0 = .next (ticked start 0) ∧ (ticked start 0).fault ≠ start.fault :=
  ⟨tick_ticked _ _, by decide⟩
/-- The instructions that fault, each at the boundary of its range. -/
def faulting : List (Instr × State) :=
  [(.sys 0#12, start), (.call 0#12, { start with sp := 15#4 }), (.ret, start), (.drw 0#4 0#4 2#4, { start with i := 0xFFF#16 }),
    (.ldB 0#4, { start with i := 0xFFE#16 }), (.ldMemVx 0#4, { start with i := 0x1000#16 }),
    (.ldVxMem 0xF#4, { start with i := 0xFF1#16 }), (.skp 0#4, start.writeV 0#4 16#8), (.sknp 0#4, start.writeV 0#4 16#8),
    (.ldF 0#4, start.writeV 0#4 16#8)]
theorem witness_EachInstructionRaisesOnlyItsOwnFault : ∀ p ∈ faulting,
    exec p.1 p.2 = .next (done p.1 p.2) ∧ (done p.1 p.2).fault ≠ p.2.fault := by
  have h : ∀ p ∈ faulting, (done p.1 p.2).fault ≠ p.2.fault := by decide
  exact fun p hp => ⟨exec_done _ _, h p hp⟩
/-- Both orders, and operands on both sides of the carry: 255 + 0 and 255 + 1. -/
theorem witness_AddWithCarry :
    start.cfg.vfWriteOrder = .flagLast ∧ startFirst.cfg.vfWriteOrder = .flagFirst
    ∧ ((start.writeV 0#4 0xFF#8).readV 0#4).toNat + ((start.writeV 0#4 0xFF#8).readV 1#4).toNat = 255
    ∧ ((start.writeV 0xF#4 0xFF#8).readV 0xF#4).toNat + (((start.writeV 0xF#4 0xFF#8).writeV 1#4 1#8).readV 1#4).toNat = 256
    ∧ (0#4 : Nibble) ≠ 15#4 ∧ (1#4 : Nibble) ≠ 15#4 := by decide
theorem witness_SubtractWithStrictGreaterFlag :
    start.cfg.vfWriteOrder = .flagLast ∧ startFirst.cfg.vfWriteOrder = .flagFirst
    ∧ ¬ (start.readV 0#4).toNat > (start.readV 1#4).toNat
    ∧ ((start.writeV 0xF#4 1#8).readV 0xF#4).toNat > ((start.writeV 0xF#4 1#8).readV 1#4).toNat := by decide
theorem witness_ReverseSubtractWithStrictGreaterFlag :
    start.cfg.vfWriteOrder = .flagLast ∧ startFirst.cfg.vfWriteOrder = .flagFirst
    ∧ ¬ (start.readV 1#4).toNat > (start.readV 0#4).toNat
    ∧ ((start.writeV 1#4 1#8).readV 1#4).toNat > ((start.writeV 1#4 1#8).readV 0xF#4).toNat := by decide
theorem witness_ShiftRightInPlace :
    ∃ a, a = ((startFirst.writeV 0xF#4 7#8).readV 0xF#4).toNat ∧ startFirst.cfg.vfWriteOrder = .flagFirst := ⟨7, by decide, rfl⟩
theorem witness_ShiftLeftInPlace :
    ∃ a, a = ((start.writeV 0xF#4 0x81#8).readV 0xF#4).toNat ∧ start.cfg.vfWriteOrder = .flagLast := ⟨0x81, by decide, rfl⟩
theorem witness_RandomByteIsMasked :
    ({ start with rndBytes := [0xA7#8] } : State).rndBytes.head? = some 0xA7#8
    ∧ ∃ r, start.rndBytes = [] ∧ Config.freeRnd start.rndTaken = r := ⟨rfl, _, rfl, rfl⟩
theorem witness_CallPushesItsOwnAddress :
    ({ start with sp := 14#4 } : State).sp ≠ 15#4 ∧ ({ start with sp := 15#4 } : State).sp = 15#4 := by decide
theorem witness_ReturnResumesAfterTheCall :
    ({ start with sp := 1#4 } : State).sp.toNat = (0 : Fin 16).val + 1
    ∧ ({ start with sp := 15#4 } : State).sp.toNat = (14 : Fin 16).val + 1 ∧ start.sp = 0#4 := by decide
theorem witness_CallThenReturnRoundTrip : ∃ u : State, start.sp ≠ 15#4 ∧ exec (.call 0x300#12) start = .next (done (.call 0x300#12) start)
    ∧ u.sp = (done (.call 0x300#12) start).sp ∧ u.stack = (done (.call 0x300#12) start).stack :=
  ⟨_, by decide, exec_done _ _, rfl, rfl⟩
theorem witness_GlyphLookup :
    ((start.writeV 1#4 15#8).readV 1#4).toNat ≤ 15 ∧ ((start.writeV 1#4 16#8).readV 1#4).toNat > 15
    ∧ start.cfg.fontBase = .at050
    ∧ ({ start with cfg := { start.cfg with fontBase := .at000 } } : State).cfg.fontBase = .at000 := by decide
theorem witness_BcdStoresThreeDigits :
    ({ start with i := 0xFFD#16 } : State).i.toNat + 2 ≤ 0xFFF ∧ ({ start with i := 0xFFE#16 } : State).i.toNat + 2 > 0xFFF := by
  decide
theorem witness_BlockStoreWritesTheRegisters :
    ({ start with i := 0xFF0#16 } : State).i.toNat + (15#4 : Nibble).toNat ≤ 0xFFF
    ∧ ({ start with i := 0xFF1#16 } : State).i.toNat + (15#4 : Nibble).toNat > 0xFFF
    ∧ ({ start with i := 0x1000#16 } : State).i.toNat + (0#4 : Nibble).toNat > 0xFFF := by decide
theorem witness_BlockLoadReadsTheRegisters :
    ({ start with i := 0xFFF#16 } : State).i.toNat + (0#4 : Nibble).toNat ≤ 0xFFF
    ∧ ({ start with i := 0xFFF#16 } : State).i.toNat + (1#4 : Nibble).toNat > 0xFFF := by decide
theorem witness_StoreIsSeenByTheNextFetch :
    let s : State := { start with pc := 0xFFC#16, i := 0xFFE#16 }
    s.i.toNat + (1#4 : Nibble).toNat ≤ 0xFFF ∧ (0#4 : Nibble).toNat + 1 ≤ (1#4 : Nibble).toNat
    ∧ s.pc.toNat + 2 = s.i.toNat + (0#4 : Nibble).toNat := by decide
/-- A sprite bit that covers a lit pixel, one that covers a dark one, and a pixel that no sprite bit covers. -/
theorem witness_DrawXorsTheSprite :
    let s : State := { start with i := 0xFFF#16, mem := [(0xFFF, 0x81#8)], fb := start.fb.set 0 1#64 }
    s.i.toNat + ((1#4 : Nibble).toNat - 1) ≤ 0xFFF
    ∧ ((0 : Fin 64).val = ((s.readV 0#4).toNat + 0) % 64 ∧ (0 : Fin 32).val = ((s.readV 1#4).toNat + 0) % 32
      ∧ s.fbOut 0 0 = true ∧ (s.readByte (s.i.toNat + 0)).getLsbD (7 - 0) = true)
    ∧ (s.fbOut 7 0 = false ∧ (s.readByte (s.i.toNat + 0)).getLsbD (7 - 7) = true)
    ∧ (∀ bit, bit < 8 → ¬ (8 = ((s.readV 0#4).toNat + bit) % 64)) := by decide
/-- The draw that reads nothing: `n = 0` with `I` out of range; and no collision, since nothing is covered. -/
theorem witness_DrawXorsTheSprite_zero : (0#4 : Nibble) = 0#4 ∧ ({ start with i := 0x1234#16 } : State).i.toNat > 0xFFF
    ∧ ¬ ∃ row, row < (0#4 : Nibble).toNat := ⟨rfl, by decide, by simp⟩
theorem witness_DrawOutOfRangeRaisesMemRange :
    (2#4 : Nibble) ≠ 0#4 ∧ ({ start with i := 0xFFF#16 } : State).i.toNat + ((2#4 : Nibble).toNat - 1) > 0xFFF := by decide
theorem witness_DrawingTwiceRestoresTheFramebuffer : ∃ u : State,
    (1#4 : Nibble) ≠ 15#4 ∧ (2#4 : Nibble) ≠ 15#4
    ∧ ({ start with i := 0xFFF#16 } : State).i.toNat + ((1#4 : Nibble).toNat - 1) ≤ 0xFFF
    ∧ exec (.drw 1#4 2#4 1#4) { start with i := 0xFFF#16 } = .next (done (.drw 1#4 2#4 1#4) { start with i := 0xFFF#16 })
    ∧ exec (.drw 1#4 2#4 1#4) (done (.drw 1#4 2#4 1#4) { start with i := 0xFFF#16 }) = .next u :=
  ⟨_, by decide, by decide, by decide, exec_done _ _, exec_done _ _⟩
theorem witness_KeySkips :
    ((start.writeV 1#4 15#8).readV 1#4).toNat ≤ 15 ∧ ((start.writeV 1#4 16#8).readV 1#4).toNat > 15 := by decide
/-- A tick that draws: it changes the framebuffer and VF and sets the redraw flag. -/
def drawing : State := { (start.placeOpcode 0xD001#16) with i := 0x050#16, fb := start.fb.set 0 1#64 }
theorem witness_OnlyDisplayInstructionsDraw : drawing.tick 0 = .next (ticked drawing 0) ∧ (ticked drawing 0).fb ≠ drawing.fb
    ∧ drawing.halted = false := ⟨tick_ticked _ _, by decide, by decide⟩
theorem witness_OnlyTheListedInstructionsChangeVf : drawing.tick 0 = .next (ticked drawing 0)
    ∧ (ticked drawing 0).readV 15#4 ≠ drawing.readV 15#4 := ⟨tick_ticked _ _, by decide⟩
/-- A tick that stores: LD [I], V0 at the last byte of memory. -/
def storing : State := { (start.placeOpcode 0xF055#16).writeV 0#4 0xAB#8 with i := 0xFFF#16 }
theorem witness_OnlyStoresChangeMemory : storing.tick 0 = .next (ticked storing 0)
    ∧ (ticked storing 0).readByte 0xFFF ≠ storing.readByte 0xFFF := ⟨tick_ticked _ _, by decide⟩
/-- Ticks that change each special register. -/
theorem witness_OnlyTheListedInstructionsChangeTheSpecialRegisters :
    (ticked (start.placeOpcode 0xA123#16) 0).i ≠ (start.placeOpcode 0xA123#16).i
    ∧ (ticked (start.placeOpcode 0x2300#16) 0).sp ≠ (start.placeOpcode 0x2300#16).sp
    ∧ (ticked (start.placeOpcode 0x2300#16) 0).stack ≠ (start.placeOpcode 0x2300#16).stack
    ∧ (ticked ((start.placeOpcode 0xF215#16).writeV 2#4 1#8) 0).dt.toNat > ((start.placeOpcode 0xF215#16).writeV 2#4 1#8).dt.toNat
    ∧ (ticked ((start.placeOpcode 0xF218#16).writeV 2#4 1#8) 0).st.toNat > ((start.placeOpcode 0xF218#16).writeV 2#4 1#8).st.toNat
    ∧ (ticked (start.placeOpcode 0xF50A#16) 0).wait ≠ .running := by decide
theorem witness_KeysReachOnlySkipsAndTheWait :
    start.wait = .running ∧ ¬ ∃ x, start.executes (.skp x) ∨ start.executes (.sknp x) := by
  refine ⟨rfl, ?_⟩
  have hs : decodeWord start.opcodeAtPc = .ok (.sys 0#12) := by decide
  rintro ⟨x, ⟨-, h⟩ | ⟨-, h⟩⟩ <;> rw [hs] at h <;> cases h
theorem witness_MemoryReadsBackTheLatestWrite :
    (0xFFF#16 : Word).toNat ≤ 0xFFF ∧ (0#16 : Word) ≠ 0xFFF#16 ∧ (0x1000#16 : Word).toNat > 0xFFF := by decide
theorem witness_ResetLeavesTheStatedValues : ∃ t : State, t = drawing.hostReset := ⟨_, rfl⟩
theorem witness_LoadPlacesTheImage :
    (List.replicate 3584 (0xAA#8 : Byte)).length ≤ 3584 ∧ (List.replicate 3585 (0xAA#8 : Byte)).length > 3584 := by
  simp only [List.length_replicate]; decide
theorem witness_InvariantHoldsAtReset : ∃ t : State, State.launch defaultConfig [0x12#8, 0x00#8] = .next t := ⟨_, rfl⟩
/-- The invariant at the start, and at a machine whose decode failure is on record. -/
theorem witness_EveryStepKeepsTheInvariant : ∃ t u : State, start.Inv ∧ start.tick 0 = .next t ∧ failed.Inv ∧ failed.tick 0 = .next u :=
  ⟨_, _, ⟨by decide, by decide, by decide, by decide, by decide, fun h => absurd h (by decide)⟩, tick_ticked _ _,
    ⟨by decide, by decide, by decide, by decide, by decide,
      fun _ => ⟨by decide, by decide, by decide, .inl ⟨.unknownClass5, by decide⟩⟩⟩, tick_ticked _ _⟩

end Sys2Proof.Tests
end

namespace Sys2Proof.Machine

/-! ## What executes -/

theorem decodeClass8_ne_sys (w : Word) (nnn : Addr12) : decodeClass8 w ≠ .ok (.sys nnn) := by
  unfold decodeClass8; split_ifs <;> simp

theorem decodeClassE_ne_sys (w : Word) (nnn : Addr12) : decodeClassE w ≠ .ok (.sys nnn) := by
  unfold decodeClassE; split_ifs <;> simp

theorem decodeClassF_ne_sys (w : Word) (nnn : Addr12) : decodeClassF w ≠ .ok (.sys nnn) := by
  unfold decodeClassF; split_ifs <;> simp

/-- Only class 0 decodes to SYS (30_encoding.md R64, R65). -/
theorem fieldClass_of_decodeWord_sys {w : Word} {nnn : Addr12} (h : decodeWord w = .ok (.sys nnn)) :
    fieldClass w = 0x0#4 := by
  rcases nibble_cases (fieldClass w) with hc | hc | hc | hc | hc | hc | hc | hc | hc | hc | hc | hc | hc | hc | hc | hc
  case inl => exact hc
  all_goals
    simp only [decodeWord_class1 w, decodeWord_class2 w, decodeWord_class3 w, decodeWord_class4 w, decodeWord_class5 w,
      decodeWord_class6 w, decodeWord_class7 w, decodeWord_class8 w, decodeWord_class9 w, decodeWord_classA w,
      decodeWord_classB w, decodeWord_classC w, decodeWord_classD w, decodeWord_classE w, decodeWord_classF w, hc,
      decodeClass8_ne_sys, decodeClassE_ne_sys, decodeClassF_ne_sys, Except.ok.injEq, reduceCtorEq] at h
  -- classes 5 and 9 still ask for their low nibble; every other class is settled by its constructor
  all_goals split at h <;> cases h

/-- A word that decodes to SYS is the word of that SYS, which is what its fault records (41_control_flow.md R101). -/
theorem encode_sys_of_decodeWord {w : Word} {nnn : Addr12} (h : decodeWord w = .ok (.sys nnn)) :
    encode (.sys nnn) = w := by
  have hc := fieldClass_of_decodeWord_sys h
  have hn : decodeClass0 w = .sys nnn := by simpa [decodeWord_class0 w hc] using h
  unfold decodeClass0 at hn
  split_ifs at hn
  injection hn with hn
  rw [encode, ← hn, ← hc, encodeA_fields]

/-- One instruction stands at `PC`. -/
theorem executes_unique {s : State} {i j : Instr} (hi : s.executes i) (hj : s.executes j) : i = j :=
  Except.ok.inj (hi.2.symm.trans hj.2)

/-- Under the invariant, a running machine that executes an instruction other than SYS has no fault on record: a fatal
one halts it, and after a decode failure the word at `PC` is not executed (60_exceptions.md R172, R173). -/
theorem State.Inv.safe_of_executes {s : State} {i : Instr} (h : s.Inv) (hh : s.halted = false) (he : s.executes i)
    (hi : ∀ nnn, i ≠ .sys nnn) : s.fault.cause = .noFault := by
  cases hc : s.fault.cause with
  | noFault => rfl
  | decodeFailure =>
    obtain ⟨-, -, hw, hne⟩ := h.decodeStuck hc
    rw [← hw] at hne
    rcases hne with ⟨e, hd⟩ | ⟨nnn, hd⟩
    · cases hd.symm.trans he.2
    · exact absurd (executes_unique he ⟨he.1, hd⟩) (hi nnn)
  | stackOverflow | stackUnderflow | memRange | keyIndexRange | glyphIndexRange =>
    simp [State.halted, hc, Cause.fatal] at hh

/-! ## Faults and the invariant -/

theorem fault_cause_ne_noFault (f : Fault) : f.cause ≠ .noFault := by
  cases f <;> simp [Fault.cause]

/-- A fault keeps the invariant, if a decode failure is raised only for the unexecuted word at `PC`. -/
theorem raise_inv {s : State} {f : Fault} (h : s.Inv)
    (hd : f.cause = .decodeFailure →
      s.wait = .running ∧ s.pc.toNat ≤ 0xFFE ∧ s.opcodeAtPc = f.info ∧ NotExecuted f.info) : (s.raise f).Inv := by
  by_cases hn : s.fault.cause = .noFault
  · rw [raise_eq, if_pos hn]
    exact ⟨h.memWf, h.pcBound, h.stackBound, fun hc => absurd hc (fault_cause_ne_noFault f), fun _ => rfl, hd⟩
  · rwa [State.raise, if_neg hn]

theorem cause_of_rangeFault {a : Word} {len : Nat} {f : Fault} (h : rangeFault a len = some f) :
    f.cause = .memRange := by
  unfold rangeFault at h
  split at h
  · cases h; rfl
  · cases h

theorem cause_of_memRead_error {s : State} {a : Word} {len : Nat} {f : Fault} (h : s.memRead a len = .error f) :
    f.cause = .memRange := by
  unfold State.memRead at h
  split at h
  · rename_i g hg; cases h; exact cause_of_rangeFault hg
  · cases h

theorem cause_of_memWrite_error {s : State} {a : Word} {bs : List Byte} {f : Fault} (h : s.memWrite a bs = .error f) :
    f.cause = .memRange := by
  unfold State.memWrite at h
  split at h
  · rename_i g hg; cases h; exact cause_of_rangeFault hg
  · cases h

theorem cause_of_keyOperand_error {s : State} {x : Nibble} {f : Fault} (h : s.keyOperand x = .error f) :
    f.cause = .keyIndexRange := by
  unfold State.keyOperand at h
  split at h <;> cases h
  rfl

theorem cause_of_digitOperand_error {s : State} {x : Nibble} {f : Fault} (h : s.digitOperand x = .error f) :
    f.cause = .glyphIndexRange := by
  unfold State.digitOperand at h
  split at h <;> cases h
  rfl

/-! ## Handlers and the invariant -/

/-- What a handler must answer for its completion to keep the invariant of a machine without a recorded fault. -/
def HandlerSound (s : State) : Handled → Prop
  | .error f => f.cause ≠ .decodeFailure
  | .ok (u, e) => Memory.wf u.cfg u.mem = true ∧ (∀ k : Fin 16, u.stack[k].toNat ≤ 0xFFE) ∧ u.fault = s.fault
      ∧ (e.target u.pc).toNat ≤ 0x10FE

/-- A sound handler's completion keeps the invariant. -/
theorem complete_inv {s t : State} {hd : Handled} (h : s.Inv) (hn : s.fault.cause = .noFault)
    (hs : HandlerSound s hd) (ht : s.complete hd = .next t) : t.Inv := by
  rcases complete_cases s t hd ht with ⟨f, rfl, rfl⟩ | ⟨u, e, rfl, rfl⟩
  · exact raise_inv h fun hc => absurd hc hs
  · obtain ⟨hm, hst, hf, hpc⟩ := hs
    have hun : u.fault.cause = .noFault := hf ▸ hn
    refine ⟨hm, hpc, hst, fun _ => ?_, fun hc => absurd hun hc, fun hc => ?_⟩
    · rw [applyPc_fault, hf]; exact h.faultNone hn
    · rw [applyPc_fault, hun] at hc; cases hc

/-- A handler that maps the answer of a shared operation is sound when both answers of the operation are. -/
theorem handlerSound_map {α : Type} {s : State} {x : Except Fault α} {g : α → State × PcEffect}
    (herr : ∀ f, x = .error f → f.cause ≠ .decodeFailure) (hok : ∀ a, x = .ok a → HandlerSound s (.ok (g a))) :
    HandlerSound s (x.map g) := by
  cases x with
  | error f => exact herr f rfl
  | ok a => exact hok a rfl

/-- The fields the invariant speaks of, the wait apart, are the same in two states. -/
structure KeepsInvFields (s u : State) : Prop where
  mem : u.mem = s.mem
  cfg : u.cfg = s.cfg
  stack : u.stack = s.stack
  pc : u.pc = s.pc
  fault : u.fault = s.fault

theorem keepsInvFields_writeV (s : State) (r : Nibble) (b : Byte) : KeepsInvFields s (s.writeV r b) :=
  ⟨rfl, rfl, rfl, rfl, rfl⟩

theorem keepsInvFields_writeResultAndFlag (s : State) (x y : Nibble) (res fl : Byte → Byte → Byte) :
    KeepsInvFields s (s.writeResultAndFlag x y res fl) := by
  rw [writeResultAndFlag_eq]; exact ⟨rfl, rfl, rfl, rfl, rfl⟩

theorem keepsInvFields_writeRegs (s : State) (k : Nat) (bs : List Byte) : KeepsInvFields s (s.writeRegs k bs) := by
  rw [writeRegs_eq]; exact ⟨rfl, rfl, rfl, rfl, rfl⟩

/-- Where an effect may lead from a fetchable `PC`: a jump at most to the corner of JP V0 (10_state.md R15). -/
def PcEffect.bounded : PcEffect → Prop
  | .next | .skip => True
  | .jump a => a.toNat ≤ 0x10FE

theorem bounded_skipIf (c : Bool) : (PcEffect.skipIf c).bounded := by cases c <;> trivial

theorem bounded_jump_zextAddr (nnn : Addr12) : (PcEffect.jump (zextAddr nnn)).bounded := by
  show (zextAddr nnn).toNat ≤ 0x10FE
  have := nnn.isLt
  simp only [zextAddr, BitVec.toNat_setWidth]
  omega

theorem bounded_jump_zextAddr_add (nnn : Addr12) (b : Byte) :
    (PcEffect.jump (zextAddr nnn + zextByte b)).bounded := by
  show (zextAddr nnn + zextByte b).toNat ≤ 0x10FE
  have := nnn.isLt
  have := b.isLt
  simp only [zextAddr, zextByte, BitVec.toNat_add, BitVec.toNat_setWidth]
  omega

theorem target_le_of_bounded {pc : Word} {e : PcEffect} (hp : pc.toNat ≤ 0xFFE) (he : e.bounded) :
    (e.target pc).toNat ≤ 0x10FE := by
  cases e with
  | next => rw [target_next, BitVec.toNat_add]; simp only [BitVec.toNat_ofNat]; omega
  | skip => rw [target_skip, BitVec.toNat_add]; simp only [BitVec.toNat_ofNat]; omega
  | jump a => exact he

section
variable {s : State} (h : s.Inv) (hp : s.pc.toNat ≤ 0xFFE)
include h hp

/-- Writes beside memory, stack and fault record are sound with any bounded effect. -/
theorem handlerSound_of_keeps {u : State} {e : PcEffect} (hu : KeepsInvFields s u) (he : e.bounded) :
    HandlerSound s (.ok (u, e)) := by
  obtain ⟨hm, hc, hst, hpc, hf⟩ := hu
  refine ⟨hc ▸ hm ▸ h.memWf, hst ▸ h.stackBound, hf, ?_⟩
  exact target_le_of_bounded (hpc ▸ hp) he

/-- A block write through the range check is sound (20_memory.md R42, R45). -/
theorem handlerSound_memWrite (a : Word) (bs : List Byte) :
    HandlerSound s ((s.memWrite a bs).map fun t => (t, .next)) := by
  refine handlerSound_map (fun f hf => by simp [cause_of_memWrite_error hf]) fun u hu => ?_
  unfold State.memWrite at hu
  split at hu
  · cases hu
  · rename_i hr
    cases hu
    refine ⟨?_, by simpa using h.stackBound, writeBytes_fault .., ?_⟩
    · rw [writeBytes_cfg]
      rcases (rangeFault_none a bs.length).mp hr with h0 | hr
      · rw [List.length_eq_zero_iff.mp h0]; exact h.memWf
      · exact writeBytes_wf bs s a.toNat hr h.memWf
    · rw [writeBytes_pc]; exact target_le_of_bounded hp trivial

/-- A CALL pushes its own address, at which an instruction was fetched (41_control_flow.md R104). -/
theorem handlerSound_push {target : Word} {e : PcEffect} (he : e.bounded) :
    HandlerSound s ((s.push s.pc target).map fun t => (t, e)) := by
  by_cases hsp : s.sp = 15#4
  · rw [push_error _ _ _ hsp]; exact fun hc => nomatch hc
  · rw [push_ok _ _ _ hsp]
    refine ⟨h.memWf, fun k => ?_, rfl, target_le_of_bounded hp he⟩
    simp only [Fin.getElem_fin, Vector.getElem_set]
    split
    · exact hp
    · exact h.stackBound k

omit hp in
/-- A RET resumes two above a stack slot (41_control_flow.md R102). -/
theorem handlerSound_pop : HandlerSound s (s.pop.map fun p => (p.2, .jump (p.1 + 2#16))) := by
  by_cases hsp : s.sp = 0#4
  · rw [pop_error _ hsp]; exact fun hc => nomatch hc
  · rw [pop_ok _ hsp]
    have hslot := h.stackBound ⟨(s.sp - 1#4).toNat, (s.sp - 1#4).isLt⟩
    refine ⟨h.memWf, h.stackBound, rfl, ?_⟩
    rw [target_jump, BitVec.toNat_add]
    simp only [Fin.getElem_fin, BitVec.toNat_ofNat] at hslot ⊢
    omega

/-- Every instruction but SYS is a sound handler, completed. -/
theorem exec_handlerSound (i : Instr) (hi : ∀ nnn, i ≠ .sys nnn) :
    ∃ hd, exec i s = s.complete hd ∧ HandlerSound s hd := by
  have kept : ∀ {u e}, KeepsInvFields s u → PcEffect.bounded e → HandlerSound s (.ok (u, e)) :=
    handlerSound_of_keeps h hp
  cases i with
  | sys nnn => exact absurd rfl (hi nnn)
  | cls => exact ⟨_, exec_cls _, kept ⟨rfl, rfl, rfl, rfl, rfl⟩ trivial⟩
  | ret => exact ⟨_, exec_ret _, handlerSound_pop h⟩
  | call nnn => exact ⟨_, exec_call _ _, handlerSound_push h hp (bounded_jump_zextAddr nnn)⟩
  | jp nnn => exact ⟨_, exec_jp _ _, kept ⟨rfl, rfl, rfl, rfl, rfl⟩ (bounded_jump_zextAddr nnn)⟩
  | jpV0 nnn => exact ⟨_, exec_jpV0 _ _, kept ⟨rfl, rfl, rfl, rfl, rfl⟩ (bounded_jump_zextAddr_add nnn _)⟩
  | seImm x kk => exact ⟨_, exec_seImm _ _ _, kept ⟨rfl, rfl, rfl, rfl, rfl⟩ (bounded_skipIf _)⟩
  | sneImm x kk => exact ⟨_, exec_sneImm _ _ _, kept ⟨rfl, rfl, rfl, rfl, rfl⟩ (bounded_skipIf _)⟩
  | seReg x y => exact ⟨_, exec_seReg _ _ _, kept ⟨rfl, rfl, rfl, rfl, rfl⟩ (bounded_skipIf _)⟩
  | sneReg x y => exact ⟨_, exec_sneReg _ _ _, kept ⟨rfl, rfl, rfl, rfl, rfl⟩ (bounded_skipIf _)⟩
  | ldImm x kk => exact ⟨_, exec_ldImm _ _ _, kept (keepsInvFields_writeV _ _ _) trivial⟩
  | addImm x kk => exact ⟨_, exec_addImm _ _ _, kept (keepsInvFields_writeV _ _ _) trivial⟩
  | ldReg x y => exact ⟨_, exec_ldReg _ _ _, kept (keepsInvFields_writeV _ _ _) trivial⟩
  | orReg x y => exact ⟨_, exec_orReg _ _ _, kept (keepsInvFields_writeV _ _ _) trivial⟩
  | andReg x y => exact ⟨_, exec_andReg _ _ _, kept (keepsInvFields_writeV _ _ _) trivial⟩
  | xorReg x y => exact ⟨_, exec_xorReg _ _ _, kept (keepsInvFields_writeV _ _ _) trivial⟩
  | ldVxDt x => exact ⟨_, exec_ldVxDt _ _, kept (keepsInvFields_writeV _ _ _) trivial⟩
  | addReg x y => exact ⟨_, exec_addReg _ _ _, kept (keepsInvFields_writeResultAndFlag _ _ _ _ _) trivial⟩
  | sub x y => exact ⟨_, exec_sub _ _ _, kept (keepsInvFields_writeResultAndFlag _ _ _ _ _) trivial⟩
  | shr x y => exact ⟨_, exec_shr _ _ _, kept (keepsInvFields_writeResultAndFlag _ _ _ _ _) trivial⟩
  | subn x y => exact ⟨_, exec_subn _ _ _, kept (keepsInvFields_writeResultAndFlag _ _ _ _ _) trivial⟩
  | shl x y => exact ⟨_, exec_shl _ _ _, kept (keepsInvFields_writeResultAndFlag _ _ _ _ _) trivial⟩
  | rnd x kk => exact ⟨_, exec_rnd _ _ _, kept ⟨rfl, rfl, rfl, rfl, rfl⟩ trivial⟩
  | ldI nnn => exact ⟨_, exec_ldI _ _, kept ⟨rfl, rfl, rfl, rfl, rfl⟩ trivial⟩
  | addI x => exact ⟨_, exec_addI _ _, kept ⟨rfl, rfl, rfl, rfl, rfl⟩ trivial⟩
  | ldVxK x => exact ⟨_, exec_ldVxK _ _, kept ⟨rfl, rfl, rfl, rfl, rfl⟩ trivial⟩
  | ldDtVx x => exact ⟨_, exec_ldDtVx _ _, kept ⟨rfl, rfl, rfl, rfl, rfl⟩ trivial⟩
  | ldStVx x => exact ⟨_, exec_ldStVx _ _, kept ⟨rfl, rfl, rfl, rfl, rfl⟩ trivial⟩
  | ldB x => exact ⟨_, exec_ldB _ _, handlerSound_memWrite h hp _ _⟩
  | ldMemVx x => exact ⟨_, exec_ldMemVx _ _, handlerSound_memWrite h hp _ _⟩
  | drw x y n =>
    refine ⟨_, exec_drw _ _ _ _, handlerSound_map (fun f hf => by simp [cause_of_memRead_error hf]) fun bs _ => ?_⟩
    exact kept ⟨rfl, rfl, rfl, rfl, rfl⟩ trivial
  | ldVxMem x =>
    refine ⟨_, exec_ldVxMem _ _, handlerSound_map (fun f hf => by simp [cause_of_memRead_error hf]) fun bs _ => ?_⟩
    exact kept (keepsInvFields_writeRegs _ _ _) trivial
  | skp x =>
    refine ⟨_, exec_skp _ _, handlerSound_map (fun f hf => by simp [cause_of_keyOperand_error hf]) fun k _ => ?_⟩
    exact kept ⟨rfl, rfl, rfl, rfl, rfl⟩ (bounded_skipIf _)
  | sknp x =>
    refine ⟨_, exec_sknp _ _, handlerSound_map (fun f hf => by simp [cause_of_keyOperand_error hf]) fun k _ => ?_⟩
    exact kept ⟨rfl, rfl, rfl, rfl, rfl⟩ (bounded_skipIf _)
  | ldF x =>
    refine ⟨_, exec_ldF _ _, handlerSound_map (fun f hf => by simp [cause_of_digitOperand_error hf]) fun d _ => ?_⟩
    exact kept ⟨rfl, rfl, rfl, rfl, rfl⟩ trivial

end

/-! ## The tick and the invariant -/

/-- The instruction at `PC` keeps the invariant of a running machine. -/
theorem exec_inv {s t : State} {i : Instr} (h : s.Inv) (hh : s.halted = false) (hw : s.wait = .running)
    (he : s.executes i) (ht : exec i s = .next t) : t.Inv := by
  by_cases hi : ∃ nnn, i = .sys nnn
  · obtain ⟨nnn, rfl⟩ := hi
    rw [exec_sys, complete_error] at ht
    injection ht with ht
    have hword : s.opcodeAtPc = encode (.sys nnn) := (encode_sys_of_decodeWord he.2).symm
    exact ht ▸ raise_inv h fun _ => ⟨hw, he.1, hword, .inr ⟨nnn, hword ▸ he.2⟩⟩
  · have hi : ∀ nnn, i ≠ .sys nnn := fun nnn hn => hi ⟨nnn, hn⟩
    obtain ⟨hd, hx, hs⟩ := exec_handlerSound h he.1 i hi
    exact complete_inv h (h.safe_of_executes hh he hi) hs (hx ▸ ht)

/-- Phases P1 and P2 touch no field the invariant speaks of. -/
theorem latch_inv {s : State} (k : Keys) (h : s.Inv) : (s.latch k).Inv :=
  ⟨h.memWf, h.pcBound, h.stackBound, h.faultNone, h.faultPc, h.decodeStuck⟩

/-- Phase P4 touches no field the invariant speaks of. -/
theorem countTimers_inv {s : State} (h : s.Inv) : s.countTimers.Inv :=
  ⟨h.memWf, h.pcBound, h.stackBound, h.faultNone, h.faultPc, h.decodeStuck⟩

/-- Resolving a wait keeps the invariant: a machine that waits has no decode failure on record. -/
theorem resolveWait_inv {s : State} {r : Nibble} (h : s.Inv) (hw : s.wait = .waitingForKey r) :
    (s.resolveWait r).Inv := by
  cases hl : lowestKey s.keys with
  | none => rwa [resolveWait_none s r hl]
  | some k =>
    rw [resolveWait_some s r k hl]
    refine ⟨h.memWf, h.pcBound, h.stackBound, h.faultNone, h.faultPc, fun hc => ?_⟩
    cases hw.symm.trans (h.decodeStuck hc).1

/-- Every tick keeps the invariant. -/
theorem tick_inv {s t : State} {k : Keys} (h : s.Inv) (ht : s.tick k = .next t) : t.Inv := by
  have hl := countTimers_inv (latch_inv k h)
  rcases tick_cases s t k ht with ⟨-, rfl⟩ | ⟨-, r, hr, rfl⟩ | ⟨hh, hw, hx⟩
  · exact h
  · exact resolveWait_inv (latch_inv k h) hr
  · rcases runInstruction_cases _ t hx with ⟨f, hf, rfl⟩ | ⟨hp, e, hd, rfl⟩ | ⟨hp, i, hd, hx⟩
    · exact raise_inv hl fun hc => nomatch (cause_of_memRead_error hf).symm.trans hc
    · exact raise_inv hl fun _ => ⟨hw, hp, rfl, .inl ⟨e, hd⟩⟩
    · exact exec_inv hl hh hw ⟨hp, hd⟩ hx

/-- Settles O60: each phase of the tick keeps the invariant, and a step is a tick. -/
theorem everyStepKeepsTheInvariant : Obligations.EveryStepKeepsTheInvariant :=
  ⟨fun _ _ _ h ht => tick_inv h ht, fun _ _ h ht => tick_inv h ht⟩

/-! ## Which instructions have which part among their own -/

theorem frameBuffer_mem_writes {i : Instr} (h : Part.frameBuffer ∈ writes i) : i = .cls ∨ ∃ x y n, i = .drw x y n := by
  cases i <;> simp [writes] at h ⊢

theorem redraw_mem_writes {i : Instr} (h : Part.redraw ∈ writes i) : i = .cls ∨ ∃ x y n, i = .drw x y n := by
  cases i <;> simp [writes] at h ⊢

theorem memory_mem_writes {i : Instr} (h : Part.memory ∈ writes i) : ∃ x, i = .ldB x ∨ i = .ldMemVx x := by
  cases i <;> simp [writes] at h ⊢

theorem index_mem_writes {i : Instr} (h : Part.index ∈ writes i) :
    ∃ x nnn, i = .ldI nnn ∨ i = .addI x ∨ i = .ldF x := by
  cases i <;> simp [writes] at h ⊢

theorem stackPtr_mem_writes {i : Instr} (h : Part.stackPtr ∈ writes i) : ∃ nnn, i = .call nnn ∨ i = .ret := by
  cases i <;> simp [writes] at h ⊢

theorem stack_mem_writes {i : Instr} (h : Part.stack ∈ writes i) : ∃ nnn, i = .call nnn := by
  cases i <;> simp [writes] at h ⊢

theorem delay_mem_writes {i : Instr} (h : Part.delay ∈ writes i) : ∃ x, i = .ldDtVx x := by
  cases i <;> simp [writes] at h ⊢

theorem sound_mem_writes {i : Instr} (h : Part.sound ∈ writes i) : ∃ x, i = .ldStVx x := by
  cases i <;> simp [writes] at h ⊢

theorem wait_mem_writes {i : Instr} (h : Part.wait ∈ writes i) : ∃ x, i = .ldVxK x := by
  cases i <;> simp [writes] at h ⊢

/-- A part that no phase of the tick and no resolved wait writes, when it changes, is the executed instruction's own. -/
theorem executes_of_part_changed {s t : State} {k : Keys} {p : Part} (h : s.tick k = .next t) (hc : ¬ p.same s t)
    (hp : p ∉ [Part.delay, .sound, .keys, .redraw, .fault, .keyInput]) (hw : p ∉ [Part.regs, .wait]) :
    s.halted = false ∧ s.wait = .running
      ∧ ∃ i, s.executes i ∧ p ∈ writes i ∧ exec i (s.latch k).countTimers = .next t := by
  rcases tick_keeps s t k p h hp with hs | ⟨-, -, hq⟩ | hx
  · exact absurd hs hc
  · exact absurd (by simpa using hq) hw
  · exact hx

/-! ## The display (10_state.md R23, R24) -/

/-- A draw, its sprite in range, sets the redraw flag; out of range it leaves the flag (44_display.md R152). -/
theorem exec_drw_redraw {s t : State} {x y n : Nibble} (h : exec (.drw x y n) s = .next t) (hs : s.redraw = false) :
    t.redraw = true ↔ n = 0#4 ∨ s.i.toNat + (n.toNat - 1) ≤ 0xFFF := by
  have hn : n = 0#4 ↔ n.toNat = 0 := by rw [← BitVec.toNat_inj]; rfl
  rw [exec_drw] at h
  by_cases hr : n.toNat = 0 ∨ s.i.toNat + n.toNat ≤ memSize
  · rw [memRead_ok _ _ _ hr] at h
    cases h
    unfold memSize at hr
    refine ⟨fun _ => ?_, fun _ => rfl⟩
    rw [hn]
    omega
  · unfold memSize at hr
    obtain ⟨a, ha, -⟩ := memRead_error s s.i n.toNat ⟨by omega, by unfold memSize; omega⟩
    rw [ha] at h
    cases h
    simp only [raise_redraw, hs]
    rw [hn, Bool.false_eq_true, false_iff]
    omega

/-- The redraw flag after an instruction, when it was clear before. -/
theorem exec_redraw {s t : State} {i : Instr} (h : exec i s = .next t) (hs : s.redraw = false) :
    t.redraw = true ↔
      i = .cls ∨ ∃ x y n, i = .drw x y n ∧ (n = 0#4 ∨ s.i.toNat + (n.toNat - 1) ≤ 0xFFF) := by
  by_cases hm : Part.redraw ∈ writes i
  · rcases redraw_mem_writes hm with rfl | ⟨x, y, n, rfl⟩
    · cases h; simp
    · simp [exec_drw_redraw h hs, and_assoc]
  · have hk : t.redraw = s.redraw := exec_keeps i s t .redraw h hm (by decide)
    rw [hk, hs, Bool.false_eq_true, false_iff]
    rintro (rfl | ⟨x, y, n, rfl, -⟩) <;> exact absurd (by simp [writes]) hm

/-- A tick that finds the wait pending leaves the redraw flag as P1 cleared it. -/
theorem resolveWait_redraw (s : State) (r : Nibble) : (s.resolveWait r).redraw = s.redraw := by
  unfold State.resolveWait; split <;> rfl

/-- Settles O51: the frame of the tick for the framebuffer; for the redraw flag, cleared in P1, the instruction. -/
theorem onlyDisplayInstructionsDraw : Obligations.OnlyDisplayInstructionsDraw := by
  intro s t k h
  refine ⟨fun hfb => ?_, fun hh => ?_⟩
  · obtain ⟨hh, hw, i, he, hm, -⟩ := executes_of_part_changed (p := .frameBuffer) h hfb (by decide) (by decide)
    rcases frameBuffer_mem_writes hm with rfl | ⟨x, y, n, rfl⟩
    · exact ⟨hh, hw, .inl he⟩
    · exact ⟨hh, hw, .inr ⟨x, y, n, he⟩⟩
  · rcases tick_cases s t k h with ⟨hh', -⟩ | ⟨-, r, hr, rfl⟩ | ⟨-, hw, -⟩
    · rw [hh] at hh'; cases hh'
    · simp [hr, resolveWait_redraw]
    · simp only [hw, true_and]
      rcases tick_running_cases s t k hh hw h with ⟨f, rfl, hne⟩ | ⟨i, he, hx⟩
      · simp [hne]
      · have hi : ∀ j, s.executes j ↔ i = j := fun j => ⟨executes_unique he, fun hj => hj ▸ he⟩
        simpa only [hi, countTimers_i, latch_i] using exec_redraw hx rfl

/-! ## Memory (10_state.md R26, 20_memory.md R45) -/

/-- A completed block write changes only bytes of its own block. -/
theorem memWrite_changes_own_bytes {s t : State} {a : Word} {bs : List Byte} {b : Nat}
    (h : s.complete ((s.memWrite a bs).map fun u => (u, .next)) = .next t) (hb : t.readByte b ≠ s.readByte b) :
    a.toNat ≤ b ∧ b < a.toNat + bs.length := by
  rcases complete_cases _ _ _ h with ⟨f, -, rfl⟩ | ⟨u, e, hu, rfl⟩
  · exact absurd (readByte_congr (raise_mem s f) (raise_cfg s f) b) hb
  · unfold State.memWrite at hu
    split at hu <;> cases hu
    by_contra hout
    rw [readByte_applyPc, readByte_writeBytes, dif_neg hout] at hb
    exact hb rfl

/-- Settles O52: by the frame of the tick a store was executed, and a store changes only bytes of its block. -/
theorem onlyStoresChangeMemory : Obligations.OnlyStoresChangeMemory := by
  intro s t k a h ha
  obtain ⟨hh, hw, i, he, hm, hx⟩ :=
    executes_of_part_changed (p := .memory) h (fun hs => ha (hs a)) (by decide) (by decide)
  obtain ⟨x, rfl | rfl⟩ := memory_mem_writes hm
  · rw [exec_ldB] at hx
    obtain ⟨hlo, hhi⟩ := memWrite_changes_own_bytes hx ha
    simp only [countTimers_i, latch_i, bcdDigits, List.length_cons, List.length_nil] at hlo hhi
    exact ⟨hh, hw, hlo, .inl ⟨x, he, by omega⟩⟩
  · rw [exec_ldMemVx] at hx
    obtain ⟨hlo, hhi⟩ := memWrite_changes_own_bytes hx ha
    simp only [countTimers_i, latch_i, regBlock_length] at hlo hhi
    exact ⟨hh, hw, hlo, .inr ⟨x, he, by omega⟩⟩

/-! ## The flag register (10_state.md R12, R13) -/

/-- The registers an instruction may write, itself and as a flag (42_alu.md, 43_index_memory.md R145). -/
def mayWriteReg (r : Nibble) : Instr → Prop
  | .addReg x _ | .sub x _ | .shr x _ | .subn x _ | .shl x _ => x = r ∨ flagReg = r
  | .drw _ _ _ => flagReg = r
  | .ldImm x _ | .addImm x _ | .ldReg x _ | .orReg x _ | .andReg x _ | .xorReg x _ | .rnd x _ | .ldVxDt x => x = r
  | .ldVxMem x => r.toNat ≤ x.toNat
  | _ => False

/-- A completed register write changes its own register only. -/
theorem eq_of_writeV_changes {s t : State} {r x : Nibble} {b : Byte} {e : PcEffect}
    (h : s.complete (.ok (s.writeV x b, e)) = .next t) (hr : t.readV r ≠ s.readV r) : x = r := by
  by_contra hx
  cases h
  exact hr (by simp [hx])

/-- Completed result and flag writes change their destination and VF only (42_alu.md R121). -/
theorem eq_of_writeResultAndFlag_changes {s t : State} {r x y : Nibble} {res fl : Byte → Byte → Byte} {e : PcEffect}
    (h : s.complete (.ok (s.writeResultAndFlag x y res fl, e)) = .next t) (hr : t.readV r ≠ s.readV r) :
    x = r ∨ flagReg = r := by
  by_contra hx
  obtain ⟨hx, hf⟩ := not_or.mp hx
  cases h
  exact hr (readV_writeResultAndFlag_other s x y r res fl hx hf)

/-- A completed draw changes no register but VF (44_display.md R152). -/
theorem eq_flagReg_of_exec_drw_changes {s t : State} {r x y n : Nibble} (h : exec (.drw x y n) s = .next t)
    (hr : t.readV r ≠ s.readV r) : flagReg = r := by
  by_contra hf
  rw [exec_drw] at h
  rcases complete_cases _ _ _ h with ⟨f, -, rfl⟩ | ⟨u, e, hu, rfl⟩
  · exact hr (readV_congr (raise_v s f) r)
  · cases hm : s.memRead s.i n.toNat with
    | error f => rw [hm] at hu; cases hu
    | ok bs =>
      rw [hm] at hu
      cases hu
      exact hr (by rw [readV_applyPc, drawSprite_eq]; exact (readV_writeV ..).trans (if_neg hf))

/-- A completed block load changes the registers up to `x` only (43_index_memory.md R145). -/
theorem le_of_exec_ldVxMem_changes {s t : State} {r x : Nibble} (h : exec (.ldVxMem x) s = .next t)
    (hr : t.readV r ≠ s.readV r) : r.toNat ≤ x.toNat := by
  by_contra hx
  rw [exec_ldVxMem] at h
  rcases complete_cases _ _ _ h with ⟨f, -, rfl⟩ | ⟨u, e, hu, rfl⟩
  · exact hr (readV_congr (raise_v s f) r)
  · unfold State.memRead at hu
    split at hu <;> cases hu
    refine hr ?_
    rw [readV_applyPc, readV_writeRegs, dif_neg]
    · simp only [List.length_map, List.length_range]; omega
    · simp only [List.length_map, List.length_range]; omega

/-- A register that an instruction changes is one it may write. -/
theorem mayWriteReg_of_exec_changes {s t : State} {i : Instr} {r : Nibble} (h : exec i s = .next t)
    (hr : t.readV r ≠ s.readV r) : mayWriteReg r i := by
  have hm : Part.regs ∈ writes i := by
    by_contra hm
    exact hr (exec_keeps i s t .regs h hm (by decide) r)
  cases i with
  | ldImm | addImm | ldReg | orReg | andReg | xorReg | ldVxDt => exact eq_of_writeV_changes h hr
  | rnd x kk => exact eq_of_writeV_changes (s := s.takeRnd) h hr
  | addReg | sub | shr | subn | shl => exact eq_of_writeResultAndFlag_changes h hr
  | drw => exact eq_flagReg_of_exec_drw_changes h hr
  | ldVxMem => exact le_of_exec_ldVxMem_changes h hr
  | _ => simp [writes] at hm

/-- A resolved wait changes its target register only (40_tick_cycle.md R84). -/
theorem eq_of_resolveWait_changes {s : State} {r q : Nibble} (h : (s.resolveWait r).readV q ≠ s.readV q) : r = q := by
  by_contra hq
  unfold State.resolveWait at h
  split at h
  · exact h ((readV_writeV ..).trans (if_neg hq))
  · exact h rfl

/-- Settles O53: VF is register 15 as any other, so the instruction or the wait that changes it is one that may write
it. -/
theorem onlyTheListedInstructionsChangeVf : Obligations.OnlyTheListedInstructionsChangeVf := by
  intro s t k h hvf
  rcases tick_cases s t k h with ⟨-, rfl⟩ | ⟨-, r, hr, rfl⟩ | ⟨hh, hw, -⟩
  · exact absurd rfl hvf
  · exact .inl (eq_of_resolveWait_changes hvf ▸ hr)
  · rcases tick_running_cases s t k hh hw h with ⟨f, rfl, -⟩ | ⟨i, he, hx⟩
    · exact absurd (readV_congr (raise_v _ f) _) hvf
    · refine .inr ⟨i, he, ?_⟩
      have hm : mayWriteReg 15#4 i := mayWriteReg_of_exec_changes hx hvf
      cases i with
      | addReg | sub | shr | subn | shl | drw => trivial
      | ldVxMem x =>
        have hle : 15 ≤ x.toNat := hm
        exact BitVec.eq_of_toNat_eq (Nat.le_antisymm (Nat.le_of_lt_succ x.isLt) hle)
      | _ => exact hm

/-! ## The special registers (10_state.md R16 to R20, R22) -/

/-- The timers only run down, unless the tick executes an instruction (40_tick_cycle.md R85). -/
theorem timers_le_or_executes {s t : State} {k : Keys} (h : s.tick k = .next t) :
    (t.dt.toNat ≤ s.dt.toNat ∧ t.st.toNat ≤ s.st.toNat)
      ∨ ∃ i, s.executes i ∧ exec i (s.latch k).countTimers = .next t := by
  rcases tick_cases s t k h with ⟨-, rfl⟩ | ⟨-, r, hr, rfl⟩ | ⟨hh, hw, -⟩
  · exact .inl ⟨le_rfl, le_rfl⟩
  · refine .inl ?_
    unfold State.resolveWait
    split <;> exact ⟨le_rfl, le_rfl⟩
  · rcases tick_running_cases s t k hh hw h with ⟨f, rfl, -⟩ | hx
    · simp [countDown_toNat]
    · exact .inr hx

/-- A delay timer that a tick raises was loaded by LD DT (45_keypad_timers.md R164). -/
theorem executes_of_delay_raised {s t : State} {k : Keys} (h : s.tick k = .next t) (hd : t.dt.toNat > s.dt.toNat) :
    ∃ x, s.executes (.ldDtVx x) := by
  rcases timers_le_or_executes h with ⟨hle, -⟩ | ⟨i, he, hx⟩
  · omega
  · by_cases hm : Part.delay ∈ writes i
    · obtain ⟨x, rfl⟩ := delay_mem_writes hm
      exact ⟨x, he⟩
    · have hk : t.dt = countDown s.dt := exec_keeps i _ t .delay hx hm (by decide)
      rw [hk, countDown_toNat] at hd
      omega

/-- A sound timer that a tick raises was loaded by LD ST (45_keypad_timers.md R165). -/
theorem executes_of_sound_raised {s t : State} {k : Keys} (h : s.tick k = .next t) (hd : t.st.toNat > s.st.toNat) :
    ∃ x, s.executes (.ldStVx x) := by
  rcases timers_le_or_executes h with ⟨-, hle⟩ | ⟨i, he, hx⟩
  · omega
  · by_cases hm : Part.sound ∈ writes i
    · obtain ⟨x, rfl⟩ := sound_mem_writes hm
      exact ⟨x, he⟩
    · have hk : t.st = countDown s.st := exec_keeps i _ t .sound hx hm (by decide)
      rw [hk, countDown_toNat] at hd
      omega

/-- A wait that a tick starts is the one LD Vx, K arms (45_keypad_timers.md R163). -/
theorem executes_of_wait_started {s t : State} {k : Keys} (h : s.tick k = .next t) (hw : s.wait = .running)
    (ht : t.wait ≠ .running) : ∃ x, s.executes (.ldVxK x) ∧ t.wait = .waitingForKey x := by
  rcases tick_keeps s t k .wait h (by decide) with hs | ⟨-, ⟨r, hr⟩, -⟩ | ⟨-, -, i, he, hm, hx⟩
  · exact absurd (Eq.trans hs hw) ht
  · cases hw.symm.trans hr
  · obtain ⟨x, rfl⟩ := wait_mem_writes hm
    cases hx
    exact ⟨x, he, rfl⟩

/-- Settles O54: by the frame of the tick each change is the executed instruction's own. -/
theorem onlyTheListedInstructionsChangeTheSpecialRegisters :
    Obligations.OnlyTheListedInstructionsChangeTheSpecialRegisters := by
  intro s t k h
  refine ⟨fun hc => ?_, fun hc => ?_, fun hc => ?_, executes_of_delay_raised h, executes_of_sound_raised h,
    executes_of_wait_started h⟩
  · obtain ⟨-, -, i, he, hm, -⟩ := executes_of_part_changed (p := .index) h hc (by decide) (by decide)
    obtain ⟨x, nnn, rfl | rfl | rfl⟩ := index_mem_writes hm
    · exact ⟨x, nnn, .inl he⟩
    · exact ⟨x, nnn, .inr (.inl he)⟩
    · exact ⟨x, nnn, .inr (.inr he)⟩
  · obtain ⟨-, -, i, he, hm, -⟩ := executes_of_part_changed (p := .stackPtr) h hc (by decide) (by decide)
    obtain ⟨nnn, rfl | rfl⟩ := stackPtr_mem_writes hm
    · exact ⟨nnn, .inl he⟩
    · exact ⟨nnn, .inr he⟩
  · obtain ⟨-, -, i, he, hm, -⟩ := executes_of_part_changed (p := .stack) h hc (by decide) (by decide)
    obtain ⟨nnn, rfl⟩ := stack_mem_writes hm
    exact ⟨nnn, he⟩

/-! ## The step and the reset -/

/-- Settles O8: the keypad argument is the head of the list lined up, else the free value. -/
theorem stepIsTheTickOfTheHost : Obligations.StepIsTheTickOfTheHost := by
  refine ⟨fun s k ks h => ?_, fun s h => ?_⟩ <;> rw [step, State.nextKeys, h] <;> rfl

/-- After a reset memory lists no cell, so every byte reads as the reset contents (20_memory.md R46). -/
theorem readByte_hostReset (s : State) (a : Nat) : s.hostReset.readByte a = resetByte s.cfg a := rfl

theorem resetByte_glyph (cfg : Config) (j : Fin 80) :
    resetByte cfg ((fontAddr cfg.fontBase).toNat + j.val) = cfg.glyphs[j] := by
  rw [resetByte, dif_pos (by omega)]
  simp only [Nat.add_sub_cancel_left, Fin.getElem_fin]

theorem resetByte_outside (cfg : Config) (a : Nat)
    (h : a < (fontAddr cfg.fontBase).toNat ∨ (fontAddr cfg.fontBase).toNat + 80 ≤ a) : resetByte cfg a = 0#8 := by
  rw [resetByte, dif_neg (by omega)]
  rfl

/-- After a reset every register is zero and every pixel off. -/
theorem readV_hostReset (s : State) (r : Nibble) : s.hostReset.readV r = 0#8 :=
  Vector.getElem_replicate ..

theorem fbOut_hostReset (s : State) (px : Fin 64) (py : Fin 32) : s.hostReset.fbOut px py = false := by
  simp [State.fbOut, FrameBuffer.pixel, State.hostReset, State.resetWith]

/-- Settles O57: the registers, the framebuffer and the memory by their lemmas, the other fields as reset writes them.
-/
theorem resetLeavesTheStatedValues : Obligations.ResetLeavesTheStatedValues := by
  rintro s _ rfl
  exact ⟨readV_hostReset s, rfl, rfl, rfl, fun j => Vector.getElem_replicate .., rfl, rfl, rfl, rfl,
    fbOut_hostReset s, rfl, rfl, resetByte_glyph s.cfg, resetByte_outside s.cfg, rfl⟩

end Sys2Proof.Machine

namespace Sys2Proof.Machine

/-! ## Bytes read back (20_memory.md R40 to R42, R50) -/

/-- A read depends only on the bytes of its own block: the range check asks for the address alone. -/
theorem memRead_congr {s t : State} {a : Word} {len : Nat}
    (h : ∀ k, k < len → t.readByte (a.toNat + k) = s.readByte (a.toNat + k)) : t.memRead a len = s.memRead a len := by
  have hb : (List.range len).map (fun k => t.readByte (a.toNat + k))
      = (List.range len).map (fun k => s.readByte (a.toNat + k)) :=
    List.map_congr_left fun k hk => h k (List.mem_range.mp hk)
  simp only [State.memRead, hb]

/-- The one address of a one-byte access is the lowest offending one (43_index_memory.md R146). -/
theorem rangeFault_one {a : Word} (h : a.toNat > 0xFFF) : rangeFault a 1 = some (.memRange a) := by
  rw [rangeFault, if_pos ⟨one_ne_zero, by omega⟩, if_pos h]

/-- Settles O56: the write is one `writeByte`, whose bytes its lemma gives; out of range the check names the address. -/
theorem memoryReadsBackTheLatestWrite : Obligations.MemoryReadsBackTheLatestWrite := by
  intro s a b
  refine ⟨fun ha => ?_, fun ha => ?_⟩
  · have hr : a.toNat + 1 ≤ memSize := by unfold memSize; omega
    refine ⟨s.writeBytes a.toNat [b], memWrite_ok s a [b] (.inr hr), ?_, fun c hc => ?_,
      onlyChanges_writeBytes s a.toNat [b], writeBytes_pc [b] s a.toNat⟩
    · rw [memRead_ok _ a 1 (.inr hr)]
      simp [readByte_writeBytes]
    · have hne : a.toNat ≠ c.toNat := fun h => hc (BitVec.eq_of_toNat_eq h.symm)
      refine memRead_congr fun k hk => ?_
      obtain rfl : k = 0 := by omega
      exact (readByte_writeByte s a.toNat c.toNat b).trans (if_neg hne)
  · simp only [State.memWrite, State.memRead, List.length_singleton, rangeFault_one ha, and_self]

/-! ## The block store and the fetch (20_memory.md R53, 43_index_memory.md R144) -/

/-- A block store in range writes the register block at `I` and advances. -/
theorem exec_ldMemVx_ok {x : Nibble} {s : State} (h : s.i.toNat + x.toNat ≤ 0xFFF) :
    exec (.ldMemVx x) s = .next ((s.writeBytes s.i.toNat (s.regBlock x)).applyPc .next) := by
  rw [exec_ldMemVx, memWrite_ok _ _ _ (.inr (by rw [regBlock_length]; unfold memSize; omega))]
  rfl

/-- After the register block is written at `a`, register `j` stands at `a + j`. -/
theorem readByte_writeBytes_regBlock (s : State) (a : Nat) {x j : Nibble} (h : j.toNat ≤ x.toNat) :
    (s.writeBytes a (s.regBlock x)).readByte (a + j.toNat) = s.readV j := by
  rw [readByte_writeBytes, dif_pos (by rw [regBlock_length]; omega), regBlock_getElem, Nat.add_sub_cancel_left,
    BitVec.ofNat_toNat, BitVec.setWidth_eq]

/-- A block store in range completes, and register `j` of its block then stands at `I + j`. -/
theorem exec_ldMemVx_stores {x : Nibble} {s : State} (h : s.i.toNat + x.toNat ≤ 0xFFF) :
    ∃ t, exec (.ldMemVx x) s = .next t ∧ t.pc = s.pc + 2#16
      ∧ ∀ j : Nibble, j.toNat ≤ x.toNat → t.readByte (s.i.toNat + j.toNat) = s.readV j := by
  refine ⟨_, exec_ldMemVx_ok h, by simp, fun j hj => ?_⟩
  rw [readByte_applyPc]
  exact readByte_writeBytes_regBlock s s.i.toNat hj

/-- Settles O43: registers `j` and `j + 1` stand where the next fetch reads, which goes by the memory of the moment. -/
theorem storeIsSeenByTheNextFetch : Obligations.StoreIsSeenByTheNextFetch := by
  intro x j s hx hj hnext
  obtain ⟨t, ht, hpc, hstored⟩ := exec_ldMemVx_stores hx
  have htpc : t.pc.toNat = s.i.toNat + j.toNat := by bv_omega
  have hj1 : (j + 1#4).toNat = j.toNat + 1 := by bv_omega
  have hhi : t.readByte t.pc.toNat = s.readV j := by
    rw [htpc]
    exact hstored j (by omega)
  have hlo : t.readByte (t.pc.toNat + 1) = s.readV (j + 1#4) := by
    rw [htpc, Nat.add_assoc, ← hj1]
    exact hstored (j + 1#4) (by omega)
  refine ⟨t, ht, hpc, ?_, ?_⟩
  · rw [State.opcodeAtPc, wordOfBytes, hhi, hlo]
  · rw [fetch_ok t (by omega), hhi, hlo]

end Sys2Proof.Machine

namespace Sys2Proof

/-! ## A word from its class and fields (30_encoding.md R63) -/

theorem encodeA_of_class {w : Word} {c : Nibble} (hc : fieldClass w = c) : encodeA c (fieldNNN w) = w := by
  rw [← hc, encodeA_fields]

theorem encodeXK_of_class {w : Word} {c : Nibble} (hc : fieldClass w = c) :
    encodeXK c (fieldX w) (fieldKK w) = w := by
  rw [← hc, encodeXK_fields]

theorem encodeXK_of_class_kk {w : Word} {c : Nibble} {kk : Byte} (hc : fieldClass w = c) (hk : fieldKK w = kk) :
    encodeXK c (fieldX w) kk = w := by
  rw [← hk, encodeXK_of_class hc]

theorem encodeXY_of_class {w : Word} {c : Nibble} (hc : fieldClass w = c) :
    encodeXY c (fieldX w) (fieldY w) (fieldN w) = w := by
  rw [← hc, encodeXY_fields]

theorem encodeXY_of_class_n {w : Word} {c n : Nibble} (hc : fieldClass w = c) (hn : fieldN w = n) :
    encodeXY c (fieldX w) (fieldY w) n = w := by
  rw [← hn, encodeXY_of_class hc]

/-! ## Decoding an encoded word (30_encoding.md R61, R64, R65, R70) -/

/-- The decoder reads back the word of every instruction but SYS 0E0 and SYS 0EE, which are CLS and RET. -/
theorem decodeWord_encode {i : Instr} (h : i.wellFormed = true) : decodeWord (encode i) = .ok i := by
  cases i with
  | cls | ret => rfl
  | sys nnn =>
    obtain ⟨hcls, hret⟩ : nnn ≠ 0x0E0#12 ∧ nnn ≠ 0x0EE#12 := by simpa [Instr.wellFormed] using h
    simp [encode, decodeWord_class0, decodeClass0, hcls, hret]
  | ldReg | orReg | andReg | xorReg | addReg | sub | shr | subn | shl =>
    simp [encode, decodeWord_class8, decodeClass8]
  | skp | sknp => simp [encode, decodeWord_classE, decodeClassE]
  | ldVxDt | ldVxK | ldDtVx | ldStVx | addI | ldF | ldB | ldMemVx | ldVxMem =>
    simp [encode, decodeWord_classF, decodeClassF]
  | jp | call | ldI | jpV0 | seImm | sneImm | ldImm | addImm | rnd | seReg | sneReg | drw =>
    simp [encode, decodeWord]

/-- Settles O2: the word by `decodeWord_encode`, the bytes by decoding the word they are of. -/
theorem decodeReadsBackEveryInstruction : Obligations.DecodeReadsBackEveryInstruction := by
  intro i rest h
  have hw : decodeWord (encode i) = .ok i := decodeWord_encode h
  refine ⟨hw, ?_⟩
  rw [encodeBytes, decode_bytesOfWord, hw]
  rfl

/-! ## Encoding a decoded instruction (30_encoding.md R61, R65, R68) -/

/-- The instruction `i` is the one the word `w` is written for: its own word, in its own row. -/
def StandsFor (w : Word) (i : Instr) : Prop := encode i = w ∧ i.wellFormed = true

/-- Whatever the answer `d` of a decoder gives stands for `w`. -/
def SoundFor (w : Word) (d : Except DecodeError Instr) : Prop := ∀ i, d = .ok i → StandsFor w i

theorem soundFor_ok {w : Word} {i : Instr} (h : StandsFor w i) : SoundFor w (.ok i) :=
  fun _ hi => Except.ok.inj hi ▸ h

theorem soundFor_error (w : Word) (e : DecodeError) : SoundFor w (.error e) :=
  fun _ hi => nomatch hi

/-- One test of a decoder: the instruction it selects stands for `w` if the test holds, and the rest is sound. -/
theorem soundFor_ite {w : Word} {c : Prop} [Decidable c] {i : Instr} {d : Except DecodeError Instr}
    (hi : c → StandsFor w i) (hd : SoundFor w d) : SoundFor w (if c then .ok i else d) := by
  split_ifs with hc
  · exact soundFor_ok (hi hc)
  · exact hd

/-- SYS is reached only past the tests for CLS and RET, so it is well formed (30_encoding.md R65). -/
theorem standsFor_decodeClass0 {w : Word} (hc : fieldClass w = 0x0#4) : StandsFor w (decodeClass0 w) := by
  have hw : encodeA 0x0#4 (fieldNNN w) = w := encodeA_of_class hc
  unfold decodeClass0
  split_ifs with hcls hret
  · rw [hcls] at hw
    exact ⟨hw, rfl⟩
  · rw [hret] at hw
    exact ⟨hw, rfl⟩
  · exact ⟨hw, by simp [Instr.wellFormed, hcls, hret]⟩

theorem soundFor_decodeClass8 {w : Word} (hc : fieldClass w = 0x8#4) : SoundFor w (decodeClass8 w) := by
  unfold decodeClass8
  iterate 9 refine soundFor_ite (fun hn => ⟨encodeXY_of_class_n hc hn, rfl⟩) ?_
  exact soundFor_error w _

theorem soundFor_decodeClassE {w : Word} (hc : fieldClass w = 0xE#4) : SoundFor w (decodeClassE w) := by
  unfold decodeClassE
  iterate 2 refine soundFor_ite (fun hk => ⟨encodeXK_of_class_kk hc hk, rfl⟩) ?_
  exact soundFor_error w _

theorem soundFor_decodeClassF {w : Word} (hc : fieldClass w = 0xF#4) : SoundFor w (decodeClassF w) := by
  unfold decodeClassF
  iterate 9 refine soundFor_ite (fun hk => ⟨encodeXK_of_class_kk hc hk, rfl⟩) ?_
  exact soundFor_error w _

/-- The decoder is sound, class by class. -/
theorem soundFor_decodeWord (w : Word) : SoundFor w (decodeWord w) := by
  rcases nibble_cases (fieldClass w) with
    hc | hc | hc | hc | hc | hc | hc | hc | hc | hc | hc | hc | hc | hc | hc | hc
  · exact decodeWord_class0 w hc ▸ soundFor_ok (standsFor_decodeClass0 hc)
  · exact decodeWord_class1 w hc ▸ soundFor_ok ⟨encodeA_of_class hc, rfl⟩
  · exact decodeWord_class2 w hc ▸ soundFor_ok ⟨encodeA_of_class hc, rfl⟩
  · exact decodeWord_class3 w hc ▸ soundFor_ok ⟨encodeXK_of_class hc, rfl⟩
  · exact decodeWord_class4 w hc ▸ soundFor_ok ⟨encodeXK_of_class hc, rfl⟩
  · exact decodeWord_class5 w hc ▸ soundFor_ite (fun hn => ⟨encodeXY_of_class_n hc hn, rfl⟩) (soundFor_error w _)
  · exact decodeWord_class6 w hc ▸ soundFor_ok ⟨encodeXK_of_class hc, rfl⟩
  · exact decodeWord_class7 w hc ▸ soundFor_ok ⟨encodeXK_of_class hc, rfl⟩
  · exact decodeWord_class8 w hc ▸ soundFor_decodeClass8 hc
  · exact decodeWord_class9 w hc ▸ soundFor_ite (fun hn => ⟨encodeXY_of_class_n hc hn, rfl⟩) (soundFor_error w _)
  · exact decodeWord_classA w hc ▸ soundFor_ok ⟨encodeA_of_class hc, rfl⟩
  · exact decodeWord_classB w hc ▸ soundFor_ok ⟨encodeA_of_class hc, rfl⟩
  · exact decodeWord_classC w hc ▸ soundFor_ok ⟨encodeXK_of_class hc, rfl⟩
  · exact decodeWord_classD w hc ▸ soundFor_ok ⟨encodeXY_of_class hc, rfl⟩
  · exact decodeWord_classE w hc ▸ soundFor_decodeClassE hc
  · exact decodeWord_classF w hc ▸ soundFor_decodeClassF hc

/-- Settles O3: the encoded word and the well-formedness that `StandsFor` names. -/
theorem decodedWordsEncodeBack : Obligations.DecodedWordsEncodeBack :=
  fun w i h => soundFor_decodeWord w i h

/-! ## The match and the fields (30_encoding.md R63, R70) -/

/-- Format A: `nnn` stands in the low twelve bits beside the class. -/
theorem encodeA_eq_or (c : Nibble) (nnn : Addr12) : encodeA c nnn = encodeA c 0#12 ||| nnn.setWidth 16 := by
  ext k hk
  grind [encodeA]

/-- Format XK with a free `kk`: the class is fixed. -/
theorem encodeXK_eq_class_or (c x : Nibble) (kk : Byte) :
    encodeXK c x kk = encodeXK c 0#4 0#8 ||| ((x.setWidth 16 <<< 8) ||| kk.setWidth 16) := by
  ext k hk
  grind [encodeXK]

/-- Format XK with a selecting `kk`: the class and the low byte are fixed. -/
theorem encodeXK_eq_low_or (c x : Nibble) (kk : Byte) :
    encodeXK c x kk = encodeXK c 0#4 kk ||| (x.setWidth 16 <<< 8) := by
  ext k hk
  grind [encodeXK]

/-- Format XYN: the class is fixed. -/
theorem encodeXY_eq_class_or (c x y n : Nibble) :
    encodeXY c x y n
      = encodeXY c 0#4 0#4 0#4 ||| ((x.setWidth 16 <<< 8) ||| (y.setWidth 16 <<< 4) ||| n.setWidth 16) := by
  ext k hk
  grind [encodeXY]

/-- Format XY: the class and the low nibble are fixed. -/
theorem encodeXY_eq_low_or (c x y n : Nibble) :
    encodeXY c x y n = encodeXY c 0#4 0#4 n ||| ((x.setWidth 16 <<< 8) ||| (y.setWidth 16 <<< 4)) := by
  ext k hk
  grind [encodeXY]

/-- Settles O4, format by format: the row's match is the format's word with its operand fields zero. -/
theorem encodingIsTheMatchWithItsFields : Obligations.EncodingIsTheMatchWithItsFields := by
  refine ⟨fun i => ?_, fun _ => rfl, by decide, by decide⟩
  cases i with
  | cls | ret => rfl
  | sys nnn | jp nnn | call nnn | ldI nnn | jpV0 nnn => exact encodeA_eq_or _ nnn
  | seImm x kk | sneImm x kk | ldImm x kk | addImm x kk | rnd x kk => exact encodeXK_eq_class_or _ x kk
  | seReg x y | sneReg x y | ldReg x y | orReg x y | andReg x y | xorReg x y | addReg x y | sub x y | shr x y
  | subn x y | shl x y => exact encodeXY_eq_low_or _ x y _
  | drw x y n => exact encodeXY_eq_class_or _ x y n
  | skp x | sknp x | ldVxDt x | ldVxK x | ldDtVx x | ldStVx x | addI x | ldF x | ldB x | ldMemVx x | ldVxMem x =>
    exact encodeXK_eq_low_or _ x _

/-! ## The row a word selects (30_encoding.md R64, R65) -/

/-- The word of an instruction selects its row. -/
theorem encode_selects_row : ∀ i : Instr, encode i &&& i.row.mask = i.row.bits
  | .sys nnn => Laws.MatchesRow.sys nnn
  | .cls => Laws.MatchesRow.cls
  | .ret => Laws.MatchesRow.ret
  | .jp nnn => Laws.MatchesRow.jp nnn
  | .call nnn => Laws.MatchesRow.call nnn
  | .seImm x kk => Laws.MatchesRow.seImm x kk
  | .sneImm x kk => Laws.MatchesRow.sneImm x kk
  | .seReg x y => Laws.MatchesRow.seReg x y
  | .ldImm x kk => Laws.MatchesRow.ldImm x kk
  | .addImm x kk => Laws.MatchesRow.addImm x kk
  | .ldReg x y => Laws.MatchesRow.ldReg x y
  | .orReg x y => Laws.MatchesRow.orReg x y
  | .andReg x y => Laws.MatchesRow.andReg x y
  | .xorReg x y => Laws.MatchesRow.xorReg x y
  | .addReg x y => Laws.MatchesRow.addReg x y
  | .sub x y => Laws.MatchesRow.sub x y
  | .shr x y => Laws.MatchesRow.shr x y
  | .subn x y => Laws.MatchesRow.subn x y
  | .shl x y => Laws.MatchesRow.shl x y
  | .sneReg x y => Laws.MatchesRow.sneReg x y
  | .ldI nnn => Laws.MatchesRow.ldI nnn
  | .jpV0 nnn => Laws.MatchesRow.jpV0 nnn
  | .rnd x kk => Laws.MatchesRow.rnd x kk
  | .drw x y n => Laws.MatchesRow.drw x y n
  | .skp x => Laws.MatchesRow.skp x
  | .sknp x => Laws.MatchesRow.sknp x
  | .ldVxDt x => Laws.MatchesRow.ldVxDt x
  | .ldVxK x => Laws.MatchesRow.ldVxK x
  | .ldDtVx x => Laws.MatchesRow.ldDtVx x
  | .ldStVx x => Laws.MatchesRow.ldStVx x
  | .addI x => Laws.MatchesRow.addI x
  | .ldF x => Laws.MatchesRow.ldF x
  | .ldB x => Laws.MatchesRow.ldB x
  | .ldMemVx x => Laws.MatchesRow.ldMemVx x
  | .ldVxMem x => Laws.MatchesRow.ldVxMem x

/-- The row of an instruction does not depend on its operands, so it is in the table. -/
theorem row_mem_opcodeTable (i : Instr) : i.row ∈ opcodeTable := by
  cases i <;> exact List.mem_of_elem_eq_true rfl

/-- The instruction of the row of `i` whose operands are the fields of the word `w`. -/
def Instr.withFieldsOf (w : Word) : Instr → Instr
  | .sys _ => .sys (fieldNNN w)
  | .cls => .cls
  | .ret => .ret
  | .jp _ => .jp (fieldNNN w)
  | .call _ => .call (fieldNNN w)
  | .seImm _ _ => .seImm (fieldX w) (fieldKK w)
  | .sneImm _ _ => .sneImm (fieldX w) (fieldKK w)
  | .seReg _ _ => .seReg (fieldX w) (fieldY w)
  | .ldImm _ _ => .ldImm (fieldX w) (fieldKK w)
  | .addImm _ _ => .addImm (fieldX w) (fieldKK w)
  | .ldReg _ _ => .ldReg (fieldX w) (fieldY w)
  | .orReg _ _ => .orReg (fieldX w) (fieldY w)
  | .andReg _ _ => .andReg (fieldX w) (fieldY w)
  | .xorReg _ _ => .xorReg (fieldX w) (fieldY w)
  | .addReg _ _ => .addReg (fieldX w) (fieldY w)
  | .sub _ _ => .sub (fieldX w) (fieldY w)
  | .shr _ _ => .shr (fieldX w) (fieldY w)
  | .subn _ _ => .subn (fieldX w) (fieldY w)
  | .shl _ _ => .shl (fieldX w) (fieldY w)
  | .sneReg _ _ => .sneReg (fieldX w) (fieldY w)
  | .ldI _ => .ldI (fieldNNN w)
  | .jpV0 _ => .jpV0 (fieldNNN w)
  | .rnd _ _ => .rnd (fieldX w) (fieldKK w)
  | .drw _ _ _ => .drw (fieldX w) (fieldY w) (fieldN w)
  | .skp _ => .skp (fieldX w)
  | .sknp _ => .sknp (fieldX w)
  | .ldVxDt _ => .ldVxDt (fieldX w)
  | .ldVxK _ => .ldVxK (fieldX w)
  | .ldDtVx _ => .ldDtVx (fieldX w)
  | .ldStVx _ => .ldStVx (fieldX w)
  | .addI _ => .addI (fieldX w)
  | .ldF _ => .ldF (fieldX w)
  | .ldB _ => .ldB (fieldX w)
  | .ldMemVx _ => .ldMemVx (fieldX w)
  | .ldVxMem _ => .ldVxMem (fieldX w)

@[simp] theorem row_withFieldsOf (w : Word) (i : Instr) : (i.withFieldsOf w).row = i.row := by
  cases i <;> rfl

/-- The mask of one class fixes the class. -/
theorem fieldClass_of_masked {w : Word} {c : Nibble} (h : w &&& 0xF000#16 = encodeA c 0#12) : fieldClass w = c := by
  rw [← encodeA_fields w, encodeA_class] at h
  simpa using congrArg fieldClass h

/-- The mask of class and low nibble fixes both. -/
theorem encodeXY_of_masked {w : Word} {c n : Nibble} (h : w &&& 0xF00F#16 = encodeXY c 0#4 0#4 n) :
    encodeXY c (fieldX w) (fieldY w) n = w := by
  rw [← encodeXY_fields w, encodeXY_low] at h
  exact encodeXY_of_class_n (by simpa using congrArg fieldClass h) (by simpa using congrArg fieldN h)

/-- The mask of class and low byte fixes both. -/
theorem encodeXK_of_masked {w : Word} {c : Nibble} {kk : Byte} (h : w &&& 0xF0FF#16 = encodeXK c 0#4 kk) :
    encodeXK c (fieldX w) kk = w := by
  rw [← encodeXK_fields w, encodeXK_low] at h
  exact encodeXK_of_class_kk (by simpa using congrArg fieldClass h) (by simpa using congrArg fieldKK h)

/-- A word that selects the row of `i` is the word of that row's instruction with the word's fields. -/
theorem encode_withFieldsOf {w : Word} {i : Instr} (h : w &&& i.row.mask = i.row.bits) :
    encode (i.withFieldsOf w) = w := by
  cases i with
  | cls | ret => exact h.symm.trans BitVec.and_allOnes
  | sys | jp | call | ldI | jpV0 => exact encodeA_of_class (fieldClass_of_masked h)
  | seImm | sneImm | ldImm | addImm | rnd => exact encodeXK_of_class (fieldClass_of_masked h)
  | drw => exact encodeXY_of_class (fieldClass_of_masked h)
  | seReg | sneReg | ldReg | orReg | andReg | xorReg | addReg | sub | shr | subn | shl => exact encodeXY_of_masked h
  | skp | sknp | ldVxDt | ldVxK | ldDtVx | ldStVx | addI | ldF | ldB | ldMemVx | ldVxMem => exact encodeXK_of_masked h

/-- Only SYS can be ill formed. -/
theorem wellFormed_of_row_ne_sys {i : Instr} (h : i.row.id ≠ "sys") : i.wellFormed = true := by
  cases i with
  | sys => exact absurd rfl h
  | _ => rfl

/-- An ill-formed instruction encodes to the word of CLS or RET. -/
theorem wellFormed_of_encode_ne {i : Instr} (hcls : encode i ≠ 0x00E0#16) (hret : encode i ≠ 0x00EE#16) :
    i.wellFormed = true := by
  cases i with
  | sys nnn =>
    have hE0 : nnn ≠ 0x0E0#12 := fun h => hcls (congrArg (encodeA 0x0#4) h)
    have hEE : nnn ≠ 0x0EE#12 := fun h => hret (congrArg (encodeA 0x0#4) h)
    simp [Instr.wellFormed, hE0, hEE]
  | _ => rfl

/-- A word that selects a row decodes to the instruction of that row with the word's fields, if that is well formed. -/
theorem decodeWord_of_selects {w : Word} {i : Instr} (h : w &&& i.row.mask = i.row.bits)
    (hwf : (i.withFieldsOf w).wellFormed = true) : decodeWord w = .ok (i.withFieldsOf w) := by
  rw [← decodeWord_encode hwf, encode_withFieldsOf h]

/-- The instruction of a selected row with the fields of a word that is neither CLS nor RET is well formed. -/
theorem wellFormed_withFieldsOf {w : Word} {i : Instr} (h : w &&& i.row.mask = i.row.bits)
    (hcls : w ≠ 0x00E0#16) (hret : w ≠ 0x00EE#16) : (i.withFieldsOf w).wellFormed = true :=
  wellFormed_of_encode_ne (by rwa [encode_withFieldsOf h]) (by rwa [encode_withFieldsOf h])

/-- A row of the table is the row of an instruction. -/
theorem exists_row_of_mem {r : OpRow} (h : r ∈ opcodeTable) : ∃ i : Instr, i.row = r := by
  obtain ⟨i, -, hi⟩ := List.mem_map.mp h
  exact ⟨i, hi⟩

/-- Settles O5: a row is the row of an instruction, and a word that selects it is the word of that row's instruction
with the word's fields, which the decoder reads back. -/
theorem decoderSelectsTheRowOfTheTable : Obligations.DecoderSelectsTheRowOfTheTable := by
  refine ⟨fun w i h => ?_, fun w r hr hw hid => ?_, fun w hw hcls hret => ?_, fun w r q hr hq hwr hwq => ?_⟩
  · obtain ⟨rfl, -⟩ := soundFor_decodeWord w i h
    exact ⟨row_mem_opcodeTable i, encode_selects_row i⟩
  · obtain ⟨i, rfl⟩ := exists_row_of_mem hr
    have hwf : (i.withFieldsOf w).wellFormed = true := wellFormed_of_row_ne_sys (by rwa [row_withFieldsOf])
    exact ⟨_, decodeWord_of_selects hw hwf, row_withFieldsOf w i⟩
  · have hwf := wellFormed_withFieldsOf (i := .sys 0#12) hw hcls hret
    exact ⟨fieldNNN w, decodeWord_of_selects hw hwf⟩
  · obtain ⟨i, rfl⟩ := exists_row_of_mem hr
    obtain ⟨j, rfl⟩ := exists_row_of_mem hq
    by_contra! hne
    obtain ⟨hrow, hcls, hret⟩ := hne
    have hi := decodeWord_of_selects hwr (wellFormed_withFieldsOf hwr hcls hret)
    have hj := decodeWord_of_selects hwq (wellFormed_withFieldsOf hwq hcls hret)
    have hij : i.withFieldsOf w = j.withFieldsOf w := Except.ok.inj (hi.symm.trans hj)
    exact hrow (by simpa using congrArg Instr.row hij)

/-! ## The words that decode to nothing (30_encoding.md R66) -/

/-- One test of a decoder: it refuses where the test fails and the rest refuses. -/
theorem ite_ok_error_iff {c : Prop} [Decidable c] {i : Instr} {d : Except DecodeError Instr} :
    (∃ e, (if c then .ok i else d) = .error e) ↔ ¬c ∧ ∃ e, d = .error e := by
  split_ifs with hc <;> simp [hc]

theorem decodeClass8_error_iff (w : Word) :
    (∃ e, decodeClass8 w = .error e) ↔ fieldN w ∈ [0x8#4, 0x9#4, 0xA#4, 0xB#4, 0xC#4, 0xD#4, 0xF#4] := by
  simp only [decodeClass8, ite_ok_error_iff, Except.error.injEq, exists_eq', and_true]
  generalize fieldN w = n
  revert n
  decide

theorem decodeClassE_error_iff (w : Word) :
    (∃ e, decodeClassE w = .error e) ↔ fieldKK w ∉ [0x9E#8, 0xA1#8] := by
  simp [decodeClassE, ite_ok_error_iff]

theorem decodeClassF_error_iff (w : Word) : (∃ e, decodeClassF w = .error e) ↔
    fieldKK w ∉ [0x07#8, 0x0A#8, 0x15#8, 0x18#8, 0x1E#8, 0x29#8, 0x33#8, 0x55#8, 0x65#8] := by
  simp [decodeClassF, ite_ok_error_iff]

/-- Settles O6, class by class: the five classes that select further refuse the rest, the other eleven refuse none. -/
theorem unknownWordsAreExactlyTheListedOnes : Obligations.UnknownWordsAreExactlyTheListedOnes := by
  intro w
  rcases nibble_cases (fieldClass w) with
    hc | hc | hc | hc | hc | hc | hc | hc | hc | hc | hc | hc | hc | hc | hc | hc
  · simp [decodeWord_class0 w hc, hc]
  · simp [decodeWord_class1 w hc, hc]
  · simp [decodeWord_class2 w hc, hc]
  · simp [decodeWord_class3 w hc, hc]
  · simp [decodeWord_class4 w hc, hc]
  · simp [decodeWord_class5 w hc, hc, ite_ok_error_iff]
  · simp [decodeWord_class6 w hc, hc]
  · simp [decodeWord_class7 w hc, hc]
  · simp [decodeWord_class8 w hc, hc, decodeClass8_error_iff]
  · simp [decodeWord_class9 w hc, hc, ite_ok_error_iff]
  · simp [decodeWord_classA w hc, hc]
  · simp [decodeWord_classB w hc, hc]
  · simp [decodeWord_classC w hc, hc]
  · simp [decodeWord_classD w hc, hc]
  · simp [decodeWord_classE w hc, hc, decodeClassE_error_iff]
  · simp [decodeWord_classF w hc, hc, decodeClassF_error_iff]

/-! ## Words of the table, and the bytes of an instruction -/

/-- Settles O1: each word is decoded as it stands. -/
theorem specWordsDecodeAsTheTableSays : Obligations.SpecWordsDecodeAsTheTableSays := by
  unfold Obligations.SpecWordsDecodeAsTheTableSays
  decide

/-- Bytes decode to an instruction only if there are two, whose word decodes to it. -/
theorem decode_eq_ok {bs rest : List Byte} {i : Instr} (h : decode bs = .ok (i, rest)) :
    ∃ hi lo, bs = hi :: lo :: rest ∧ decodeWord (wordOfBytes hi lo) = .ok i := by
  match bs with
  | [] | [_] => cases h
  | hi :: lo :: bs =>
    rw [decode_two] at h
    cases hw : decodeWord (wordOfBytes hi lo) with
    | error e => rw [hw] at h; cases h
    | ok j => rw [hw] at h; cases h; exact ⟨hi, lo, rfl, hw⟩

/-- Settles O7: fewer than two bytes decode to nothing by definition, and `decode_eq_ok` gives the two of the rest. -/
theorem everyInstructionIsTwoBytes : Obligations.EveryInstructionIsTwoBytes :=
  ⟨rfl, fun _ => rfl, fun _ _ _ => decode_eq_ok⟩

end Sys2Proof

namespace Sys2Proof.Machine

/-! ## The phases of the tick before execution, and their frames (40_tick_cycle.md R82 to R85) -/

/-- Phases P1 and P2 change the snapshot, the redraw flag and the keypad input only. -/
theorem onlyChanges_latch (s : State) (k : Keys) : OnlyChanges [.keys, .redraw, .keyInput] s (s.latch k) :=
  fun p hp => by cases p <;> simp_all [Part.same]

/-- Phase P4 changes the timers only. -/
theorem onlyChanges_countTimers (s : State) : OnlyChanges [.delay, .sound] s s.countTimers :=
  fun p hp => by cases p <;> simp_all [Part.same]

/-- Resolving a wait changes the registers and the wait only. -/
theorem onlyChanges_resolveWait (s : State) (r : Nibble) : OnlyChanges [.regs, .wait] s (s.resolveWait r) := by
  cases hl : lowestKey s.keys with
  | none => rw [resolveWait_none s r hl]; exact onlyChanges_refl _ s
  | some n =>
    rw [resolveWait_some s r n hl]
    intro p hp
    cases p <;> simp_all [Part.same, State.readByte]

/-- A tick that finds the wait pending is the resolution of the wait on the latched keys. -/
theorem tick_waiting {s : State} {r : Nibble} (k : Keys) (hh : s.halted = false) (hw : s.wait = .waitingForKey r) :
    s.tick k = .next ((s.latch k).resolveWait r) := by
  simp [State.tick, hh, hw]

/-- A part that the tick of a running machine does not leave as the timer phase left it is the executed instruction's
own, the fault record apart. -/
theorem tick_running_keeps {s t : State} {k : Keys} {p : Part} (hh : s.halted = false) (hw : s.wait = .running)
    (h : s.tick k = .next t) (hp : p ≠ .fault) :
    p.same (s.latch k).countTimers t ∨ ∃ i, s.executes i ∧ p ∈ writes i := by
  rcases tick_running_cases s t k hh hw h with ⟨f, rfl, -⟩ | ⟨i, he, hx⟩
  · exact .inl ((raise_faulted _ f).2.1 p (by simpa using hp))
  · by_cases hm : p ∈ writes i
    · exact .inr ⟨i, he, hm⟩
    · exact .inl (exec_keeps i _ t p hx hm hp)

/-- The tick of a running machine, when it executes `i`, is `i` on the state the phases before it made. -/
theorem exec_of_tick {s t : State} {k : Keys} {i : Instr} (hh : s.halted = false) (hw : s.wait = .running)
    (h : s.tick k = .next t) (he : s.executes i) : exec i (s.latch k).countTimers = .next t :=
  (tick_executes s k i hh hw he).symm.trans h

/-! ## The wait (40_tick_cycle.md R84) -/

/-- The key that is down with no lower one down is the lowest. -/
theorem lowestKey_eq_some {k : Keys} {n : Nat} (hd : k.getLsbD n = true)
    (hlow : ∀ j, j < n → k.getLsbD j = false) : lowestKey k = some n := by
  cases hl : lowestKey k with
  | none =>
    rw [(lowestKey_none k).mp hl] at hd
    simp at hd
  | some m =>
    obtain ⟨-, hm, hmlow⟩ := lowestKey_some k m hl
    have hmn : ¬ m < n := fun hlt => by simp [hlow m hlt] at hm
    have hnm : ¬ n < m := fun hlt => by simp [hmlow n hlt] at hd
    exact congrArg some (by omega)

/-- Settles O12: the tick is the resolved wait, with a lowest key or with none. -/
theorem waitResolvesOrHolds : Obligations.WaitResolvesOrHolds := by
  intro s r k hh hw
  have hframe := onlyChanges_resolveWait (s.latch k) r
  have hkeys : ((s.latch k).resolveWait r).keys = k := hframe .keys (by decide)
  refine ⟨_, tick_waiting k hh hw, ?_, hkeys, resolveWait_redraw _ r, fun n _ hd hlow => ?_, fun hk => ?_, ?_⟩
  · unfold State.resolveWait
    split <;> rfl
  · rw [resolveWait_some _ r n (lowestKey_eq_some hd hlow)]
    refine ⟨(readV_writeV (s.latch k) r r _).trans (if_pos rfl), rfl, fun q hq => ?_⟩
    exact (readV_writeV (s.latch k) r q _).trans (if_neg fun h => hq (by simp [h]))
  · rw [resolveWait_none _ r ((lowestKey_none _).mpr hk)]
    exact ⟨hw, fun _ _ => rfl⟩
  · exact onlyChanges_trans (onlyChanges_mono (onlyChanges_latch s k) (by decide))
      (onlyChanges_mono hframe (by decide))

/-! ## The keypad snapshot (40_tick_cycle.md R83) -/

/-- No instruction has the snapshot among its own parts. -/
theorem keys_not_mem_writes (i : Instr) : Part.keys ∉ writes i := by
  cases i <;> simp [writes]

/-- Every tick of a machine that is not halted leaves its argument as the snapshot. -/
theorem tick_keys {s t : State} {k : Keys} (hh : s.halted = false) (h : s.tick k = .next t) : t.keys = k := by
  rcases tick_cases s t k h with ⟨hh', -⟩ | ⟨-, r, -, rfl⟩ | ⟨-, hw, -⟩
  · rw [hh] at hh'; cases hh'
  · exact onlyChanges_resolveWait (s.latch k) r .keys (by decide)
  · rcases tick_running_keeps (p := .keys) hh hw h (by decide) with hk | ⟨i, -, hm⟩
    · exact hk
    · exact absurd hm (keys_not_mem_writes i)

/-- Settles O13: the tick executes on the latched state, so the key test sees the argument. -/
theorem snapshotIsReplacedEachTick : Obligations.SnapshotIsReplacedEachTick := by
  intro s t k hh h
  refine ⟨tick_keys hh h, fun hw x hx => ?_⟩
  have hkey : (s.latch k).countTimers.keyOperand x = .ok (s.readV x).toNat := keyOperand_ok _ x hx
  refine ⟨fun he => ?_, fun he => ?_⟩
  · have hexec := exec_of_tick hh hw h he
    rw [exec_skp, hkey] at hexec
    cases hexec
    exact target_skipIf _ _
  · have hexec := exec_of_tick hh hw h he
    rw [exec_sknp, hkey] at hexec
    cases hexec
    refine (target_skipIf _ _).trans ?_
    cases hb : k.getLsbD (s.readV x).toNat <;> simp [hb]

/-! ## The timers (40_tick_cycle.md R85) -/

/-- Settles O14: after the countdown a timer is kept, but by the instruction that loads it. -/
theorem timersCountDownOncePerExecutingTick : Obligations.TimersCountDownOncePerExecutingTick := by
  intro s t k hh h
  refine ⟨fun hw => ⟨fun hno => ?_, fun hno => ?_, fun x he => ?_, fun x he => ?_, fun x he => ?_⟩, fun r hw => ?_⟩
  · rcases tick_running_keeps (p := .delay) hh hw h (by decide) with hk | ⟨i, he, hm⟩
    · rw [show t.dt = countDown s.dt from hk, countDown_toNat]
    · obtain ⟨x, rfl⟩ := delay_mem_writes hm
      exact absurd he (hno x)
  · rcases tick_running_keeps (p := .sound) hh hw h (by decide) with hk | ⟨i, he, hm⟩
    · rw [show t.st = countDown s.st from hk, countDown_toNat]
    · obtain ⟨x, rfl⟩ := sound_mem_writes hm
      exact absurd he (hno x)
  · cases exec_of_tick hh hw h he
    simp [countDown_toNat]
  · cases exec_of_tick hh hw h he
    rfl
  · cases exec_of_tick hh hw h he
    rfl
  · cases (tick_waiting k hh hw).symm.trans h
    have hframe := onlyChanges_resolveWait (s.latch k) r
    exact ⟨hframe .delay (by decide), hframe .sound (by decide)⟩

/-! ## The PC effect of each instruction (40_tick_cycle.md R88) -/

theorem toNat_zextAddr (nnn : Addr12) : (zextAddr nnn).toNat = nnn.toNat := by
  simp only [zextAddr, BitVec.toNat_setWidth]
  omega

theorem toNat_zextAddr_add_zextByte (nnn : Addr12) (b : Byte) :
    (zextAddr nnn + zextByte b).toNat = nnn.toNat + b.toNat := by
  simp only [zextAddr, zextByte, BitVec.toNat_add, BitVec.toNat_setWidth]
  omega

theorem target_skipIf_cases (pc : Word) (c : Bool) :
    (PcEffect.skipIf c).target pc = pc + 2#16 ∨ (PcEffect.skipIf c).target pc = pc + 4#16 := by
  cases c
  · exact .inl rfl
  · exact .inr rfl

/-- A handler that ends in a safe state completed: the shared operation it maps has answered. -/
theorem exists_ok_of_complete_map_safe {α : Type} {s t : State} {x : Except Fault α} {g : α → State × PcEffect}
    (h : s.complete (x.map g) = .next t) (ht : t.safe) : ∃ a, x = .ok a ∧ t = (g a).1.applyPc (g a).2 := by
  cases x with
  | error f =>
    cases h
    exact absurd ht (raise_not_safe s f)
  | ok a =>
    cases h
    exact ⟨a, rfl, rfl⟩

/-- A block write that answers is `writeBytes`. -/
theorem eq_writeBytes_of_memWrite {s u : State} {a : Word} {bs : List Byte} (h : s.memWrite a bs = .ok u) :
    u = s.writeBytes a.toNat bs := by
  unfold State.memWrite at h
  split at h <;> cases h
  rfl

/-- A block store that completes advances. -/
theorem pc_of_complete_memWrite {s t : State} {a : Word} {bs : List Byte}
    (h : s.complete ((s.memWrite a bs).map fun u => (u, .next)) = .next t) (ht : t.safe) : t.pc = s.pc + 2#16 := by
  obtain ⟨u, hu, rfl⟩ := exists_ok_of_complete_map_safe h ht
  rw [eq_writeBytes_of_memWrite hu, applyPc_pc, writeBytes_pc, target_next]

/-- A pop that answers takes the slot below `SP`. -/
theorem pop_eq_ok {s : State} {p : Word × State} (h : s.pop = .ok p) :
    ∃ j : Fin 16, s.sp.toNat = j.val + 1 ∧ p.1 = s.stack[j] := by
  unfold State.pop at h
  split at h <;> cases h
  exact ⟨⟨(s.sp - 1#4).toNat, (s.sp - 1#4).isLt⟩, by bv_omega, rfl⟩

/-- Settles O15, instruction by instruction: the effect each handler answers, where it completes. -/
theorem everyInstructionHasItsPcEffect : Obligations.EveryInstructionHasItsPcEffect := by
  intro i s t _ h ht
  cases i with
  | sys nnn =>
    cases h
    exact raise_not_safe s _ ht
  | jp nnn =>
    cases h
    exact toNat_zextAddr nnn
  | jpV0 nnn =>
    cases h
    exact toNat_zextAddr_add_zextByte nnn _
  | call nnn =>
    obtain ⟨u, -, rfl⟩ := exists_ok_of_complete_map_safe h ht
    exact toNat_zextAddr nnn
  | ret =>
    obtain ⟨p, hp, rfl⟩ := exists_ok_of_complete_map_safe h ht
    obtain ⟨j, hsp, hslot⟩ := pop_eq_ok hp
    exact ⟨j, hsp, congrArg (· + 2#16) hslot⟩
  | seImm | sneImm | seReg | sneReg =>
    cases h
    exact target_skipIf_cases _ _
  | skp | sknp =>
    obtain ⟨k, -, rfl⟩ := exists_ok_of_complete_map_safe h ht
    exact target_skipIf_cases _ _
  | cls | ldImm | addImm | ldReg | orReg | andReg | xorReg | rnd | ldVxDt | ldVxK | ldDtVx | ldStVx | ldI | addI =>
    cases h
    rfl
  | addReg | sub | shr | subn | shl =>
    cases h
    exact congrArg (· + 2#16) (keepsInvFields_writeResultAndFlag _ _ _ _ _).pc
  | drw | ldF =>
    obtain ⟨a, -, rfl⟩ := exists_ok_of_complete_map_safe h ht
    rfl
  | ldVxMem =>
    obtain ⟨bs, -, rfl⟩ := exists_ok_of_complete_map_safe h ht
    exact congrArg (· + 2#16) (writeRegs_pc bs s 0)
  | ldB | ldMemVx => exact pc_of_complete_memWrite h ht

/-! ## Ticks that fault at the fetch or at the decoder (40_tick_cycle.md R86, R89) -/

/-- From `s` to `t`, as after `n` ticks that execute nothing, the last with the keys `k`: phases P1, P2 and P4 have had
their effect, and beside them only the fault record may differ. -/
structure StandsStill (n : Nat) (k : Keys) (s t : State) : Prop where
  pc : t.pc = s.pc
  redraw : t.redraw = false
  keys : t.keys = k
  dt : t.dt.toNat = s.dt.toNat - n
  st : t.st.toNat = s.st.toNat - n
  frame : OnlyChanges [.delay, .sound, .keys, .redraw, .fault, .keyInput] s t

/-- A fault raised before execution leaves the effects of the phases before it. -/
theorem standsStill_raise (s : State) (k : Keys) (f : Fault) : StandsStill 1 k s ((s.latch k).countTimers.raise f) where
  pc := raise_pc _ f
  redraw := raise_redraw _ f
  keys := raise_keys _ f
  dt := by rw [raise_dt, countTimers_dt, latch_dt, countDown_toNat]
  st := by rw [raise_st, countTimers_st, latch_st, countDown_toNat]
  frame := by
    obtain ⟨-, hf, -⟩ := raise_faulted (s.latch k).countTimers f
    exact onlyChanges_trans (onlyChanges_mono (onlyChanges_latch s k) (by decide))
      (onlyChanges_trans (onlyChanges_mono (onlyChanges_countTimers _) (by decide)) (onlyChanges_mono hf (by decide)))

theorem StandsStill.trans {m n : Nat} {j k : Keys} {s t u : State} (h : StandsStill m j s t)
    (g : StandsStill n k t u) : StandsStill (m + n) k s u where
  pc := g.pc.trans h.pc
  redraw := g.redraw
  keys := g.keys
  dt := by rw [g.dt, h.dt, Nat.sub_sub]
  st := by rw [g.st, h.st, Nat.sub_sub]
  frame := onlyChanges_trans h.frame g.frame

/-- The same word stands at `PC`. -/
theorem StandsStill.opcodeAtPc {n : Nat} {k : Keys} {s t : State} (h : StandsStill n k s t) :
    t.opcodeAtPc = s.opcodeAtPc := by
  have hmem : ∀ a, t.readByte a = s.readByte a := h.frame .memory (by decide)
  simp only [State.opcodeAtPc, h.pc, hmem]

/-- The instruction phases raise a decode failure at a word that no tick executes. -/
theorem runInstruction_notExecuted {s : State} (hp : s.pc.toNat ≤ 0xFFE) (hn : NotExecuted s.opcodeAtPc) :
    s.runInstruction = .next (s.countTimers.raise (.decodeFailure s.opcodeAtPc)) := by
  obtain ⟨e, hd⟩ | ⟨nnn, hd⟩ := hn
  · have hf : s.countTimers.fetch = .ok [s.readByte s.pc.toNat, s.readByte (s.pc.toNat + 1)] :=
      fetch_ok s.countTimers hp
    have hb : decode [s.readByte s.pc.toNat, s.readByte (s.pc.toNat + 1)] = .error e :=
      congrArg (Except.map fun i => (i, [])) hd
    simp only [State.runInstruction, hf, hb]
    rfl
  · rw [runInstruction_exec s _ ⟨hp, hd⟩, exec_sys, complete_error, encode_sys_of_decodeWord hd]

/-- The tick of a running machine at such a word. -/
theorem tick_notExecuted {s : State} (k : Keys) (hh : s.halted = false) (hw : s.wait = .running)
    (hp : s.pc.toNat ≤ 0xFFE) (hn : NotExecuted s.opcodeAtPc) :
    s.tick k = .next ((s.latch k).countTimers.raise (.decodeFailure s.opcodeAtPc)) :=
  (tick_running s k hh hw).trans (runInstruction_notExecuted (s := s.latch k) hp hn)

/-- Settles O16: the tick raises the decode failure, after which the machine stands still. -/
theorem decodeFailureTick : Obligations.DecodeFailureTick := by
  intro s k hh hw hp hn
  obtain ⟨hpc, hredraw, hkeys, hdt, hst, hframe⟩ := standsStill_raise s k (.decodeFailure s.opcodeAtPc)
  obtain ⟨-, -, hnone, hsome⟩ := raise_faulted (s.latch k).countTimers (.decodeFailure s.opcodeAtPc)
  exact ⟨_, tick_notExecuted k hh hw hp hn, hpc, hredraw, hkeys, hdt, hst, hframe, hnone, hsome⟩

/-- An out-of-range fetch names `PC` if it is above 0xFFF, and else 0x1000 (20_memory.md R43). -/
theorem fetch_error_eq {s : State} (h : s.pc.toNat > 0xFFE) :
    s.fetch = .error (.memRange (if s.pc.toNat > 0xFFF then s.pc else 0x1000#16)) := by
  rw [State.fetch, State.memRead, rangeFault, if_pos ⟨two_ne_zero, by omega⟩]

/-- The tick of a running machine whose fetch is out of range. -/
theorem tick_fetch_error {s : State} (k : Keys) (hh : s.halted = false) (hw : s.wait = .running)
    (hp : s.pc.toNat > 0xFFE) : s.tick k = .next ((s.latch k).countTimers.raise
      (.memRange (if s.pc.toNat > 0xFFF then s.pc else 0x1000#16))) := by
  have hf := fetch_error_eq (s := (s.latch k).countTimers) hp
  rw [tick_running s k hh hw, State.runInstruction]
  simp only [hf]
  rfl

/-- Settles O18: the tick raises the fetch's fault, after which the machine stands still. -/
theorem fetchOutOfRangeRaisesMemRange : Obligations.FetchOutOfRangeRaisesMemRange := by
  intro s k hh hw hp
  have ht := tick_fetch_error k hh hw hp
  generalize hf : Fault.memRange (if s.pc.toNat > 0xFFF then s.pc else 0x1000#16) = f at ht
  obtain ⟨hpc, hredraw, hkeys, hdt, hst, hframe⟩ := standsStill_raise s k f
  obtain ⟨-, -, hnone, hsome⟩ := raise_faulted (s.latch k).countTimers f
  refine ⟨_, ht, hpc, hredraw, hkeys, hdt, hst, hframe, fun hc => ?_, hsome⟩
  rw [hnone hc, ← hf]
  exact ⟨rfl, rfl, rfl⟩

/-! ## A decode failure recurs (40_tick_cycle.md R89, 60_exceptions.md R172) -/

/-- The record of a decode failure at `PC`. -/
def State.failureRecord (s : State) : FaultRecord := { cause := .decodeFailure, info := s.opcodeAtPc, pc := s.pc }

/-- A running machine at a word that no tick executes, before or after it recorded that failure. -/
structure State.FailsToDecode (s : State) : Prop where
  running : s.wait = .running
  fetchable : s.pc.toNat ≤ 0xFFE
  notExecuted : NotExecuted s.opcodeAtPc
  record : s.fault.cause = .noFault ∨ s.fault = s.failureRecord

/-- A decode failure does not halt. -/
theorem State.FailsToDecode.not_halted {s : State} (h : s.FailsToDecode) : s.halted = false := by
  rcases h.record with hc | hf
  · simp [State.halted, hc, Cause.fatal]
  · rw [State.halted, hf]
    rfl

theorem StandsStill.failureRecord {n : Nat} {k : Keys} {s t : State} (h : StandsStill n k s t) :
    t.failureRecord = s.failureRecord := by
  simp only [State.failureRecord, h.opcodeAtPc, h.pc]

/-- Each tick fails again, and the first failure is on record. -/
theorem State.FailsToDecode.tick_standsStill {s : State} (h : s.FailsToDecode) (k : Keys) :
    ∃ t, s.tick k = .next t ∧ StandsStill 1 k s t ∧ t.fault = s.failureRecord ∧ t.FailsToDecode := by
  have hh := h.not_halted
  obtain ⟨hw, hp, hn, hrec⟩ := h
  have hstill := standsStill_raise s k (.decodeFailure s.opcodeAtPc)
  obtain ⟨-, -, hnone, hsome⟩ := raise_faulted (s.latch k).countTimers (.decodeFailure s.opcodeAtPc)
  have hfault : ((s.latch k).countTimers.raise (.decodeFailure s.opcodeAtPc)).fault = s.failureRecord := by
    rcases hrec with hc | hf
    · exact hnone hc
    · exact (hsome (by simp [hf, State.failureRecord])).trans hf
  refine ⟨_, tick_notExecuted k hh hw hp hn, hstill, hfault, ?_⟩
  exact ⟨(raise_wait _ _).trans hw, by rwa [hstill.pc], by rwa [hstill.opcodeAtPc],
    .inr (by rw [hfault, hstill.failureRecord])⟩

/-- Any positive number of ticks fails as one does. -/
theorem State.FailsToDecode.ticks_standStill (ks : List Keys) (k : Keys) {s : State} (h : s.FailsToDecode) :
    ∃ t, s.ticks (k :: ks) = .next t ∧ StandsStill (ks.length + 1) (ks.getLastD k) s t
      ∧ t.fault = s.failureRecord := by
  induction ks generalizing k s with
  | nil =>
    obtain ⟨t, ht, hstill, hf, -⟩ := h.tick_standsStill k
    exact ⟨t, by simp only [State.ticks, ht], hstill, hf⟩
  | cons k' ks ih =>
    obtain ⟨t, ht, hstill, -, hfails⟩ := h.tick_standsStill k
    obtain ⟨u, hu, hstill', hf⟩ := ih k' hfails
    refine ⟨u, ?_, ?_, hf.trans hstill.failureRecord⟩
    · rw [State.ticks, ht]
      exact hu
    · rw [List.length_cons, List.getLastD_cons, Nat.add_comm]
      exact hstill.trans hstill'

/-- Settles O17: a machine that fails to decode goes on doing so. -/
theorem decodeFailureRecursOnEveryTick : Obligations.DecodeFailureRecursOnEveryTick := by
  intro ks s hks hc hw hp hn
  obtain ⟨k, ks, rfl⟩ := List.exists_cons_of_ne_nil hks
  have hfails : s.FailsToDecode := ⟨hw, hp, hn, .inl hc⟩
  obtain ⟨t, ht, ⟨hpc, hredraw, hkeys, hdt, hst, hframe⟩, hfault⟩ := hfails.ticks_standStill ks k
  refine ⟨t, ht, hpc, hredraw, ?_, hdt, hst, hfault, hframe⟩
  rw [hkeys, List.getLast?_cons, List.getLastD_eq_getLast?]

/-! ## The halt (40_tick_cycle.md R90) -/

/-- The fatal causes are those of codes 2 to 6 (60_exceptions.md R171). -/
theorem fatal_iff_two_le_code (c : Cause) : c.fatal = true ↔ 2 ≤ c.code := by
  cases c <;> decide

theorem tick_halted {s : State} (k : Keys) (h : s.halted = true) : s.tick k = .next s := if_pos h

theorem ticks_halted (ks : List Keys) {s : State} (h : s.halted = true) : s.ticks ks = .next s := by
  induction ks with
  | nil => rfl
  | cons k ks ih => rw [State.ticks, tick_halted k h]; exact ih

/-- Settles O11: a fatal cause halts the machine, and a halted machine's tick is the identity. -/
theorem haltedMachineNeverChanges : Obligations.HaltedMachineNeverChanges := by
  intro s h
  have hh : s.halted = true := (fatal_iff_two_le_code _).mpr h
  exact ⟨tick_halted _ hh, fun ks => ticks_halted ks hh⟩

/-! ## The step (40_tick_cycle.md R81) -/

/-- The step of a running machine is the instruction at `PC`, on the state the phases before it make. -/
theorem step_executes {s : State} {i : Instr} (hh : s.halted = false) (hw : s.wait = .running) (he : s.executes i) :
    step s = exec i (s.latch s.nextKeys).countTimers :=
  tick_executes s s.nextKeys i hh hw he

/-- Settles O9: the two bytes at `PC` decode as their word does. -/
theorem stepRunsTheDecodedInstruction : Obligations.StepRunsTheDecodedInstruction := by
  intro s i hh hw hp hd
  obtain ⟨hi, lo, hb, hword⟩ := decode_eq_ok hd
  cases hb
  obtain ⟨-, hwf⟩ := soundFor_decodeWord _ i hword
  exact ⟨hwf, step_executes hh hw ⟨hp, hword⟩⟩

/-! ## Placing an opcode (log entry 10) -/

/-- Placing clears a fatal record, and keeps any other. -/
theorem readyToFetch_not_halted (s : State) : s.readyToFetch.halted = false := by
  show (if s.halted = true then _ else s.fault : FaultRecord).cause.fatal = false
  split
  · rfl
  · exact Bool.eq_false_of_not_eq_true ‹_›

/-- Where the machine fetches anyway, the opcode is placed at its `PC`. -/
theorem readyToFetch_pc_eq {s : State} (h : s.pc.toNat ≤ 0xFFE) : s.readyToFetch.pc = s.pc := if_pos h

theorem onlyChanges_readyToFetch (s : State) : OnlyChanges [.wait, .fault] s s.readyToFetch := fun p hp => by
  cases p <;> simp_all [Part.same, State.readyToFetch, State.readV, State.readByte]

/-- A placed opcode stands at `PC`. -/
theorem opcodeAtPc_placeOpcode (s : State) (w : Word) : (s.placeOpcode w).opcodeAtPc = w := by
  simp [State.opcodeAtPc, State.placeOpcode, readByte_writeBytes, bytesOfWord]

/-- Settles O10: the placed state is ready to fetch, and its word is the opcode. -/
theorem placedOpcodeRunsNext : Obligations.PlacedOpcodeRunsNext := by
  intro s w i hd
  have hplace : s.withFetchWord 16 w.toNat = s.placeOpcode w := by
    rw [State.withFetchWord, Nat.mod_eq_of_lt w.isLt, BitVec.ofNat_toNat, BitVec.setWidth_eq]
  have hpc : (s.placeOpcode w).pc = s.readyToFetch.pc := writeBytes_pc ..
  have hwait : (s.placeOpcode w).wait = .running := writeBytes_wait ..
  have hfault : (s.placeOpcode w).fault = s.readyToFetch.fault := writeBytes_fault ..
  have hhalt : (s.placeOpcode w).halted = false := by
    rw [State.halted, hfault]
    exact readyToFetch_not_halted s
  have hfetch : (s.placeOpcode w).pc.toNat ≤ 0xFFE := hpc ▸ readyToFetch_pc s
  have hword := opcodeAtPc_placeOpcode s w
  refine ⟨_, hwait, hhalt, hfetch, hword, hplace, step_executes hhalt hwait ⟨hfetch, hword.symm ▸ hd⟩,
    fun hp => hpc.trans (readyToFetch_pc_eq hp), ?_, fun a ha => ?_⟩
  · exact onlyChanges_trans (onlyChanges_mono (onlyChanges_readyToFetch s) (by decide))
      (onlyChanges_mono (onlyChanges_writeBytes _ _ _) (by decide))
  · rw [hpc] at ha
    exact (readByte_writeBytes ..).trans (dif_neg ha)

end Sys2Proof.Machine

namespace Sys2Proof.Machine

/-! ## CALL and RET (41_control_flow.md R100, R102, R104) -/

/-- A CALL with room pushes its own address and jumps. -/
theorem exec_call_ok {nnn : Addr12} {s : State} (h : s.sp ≠ 15#4) :
    exec (.call nnn) s = .next
      { s with stack := s.stack.set s.sp.toNat s.pc, sp := s.sp + 1#4, pc := zextAddr nnn } := by
  rw [exec_call, push_ok _ _ _ h]
  rfl

/-- A CALL without room raises StackOverflow with its target. -/
theorem exec_call_error {nnn : Addr12} {s : State} (h : s.sp = 15#4) :
    exec (.call nnn) s = .next (s.raise (.stackOverflow (zextAddr nnn))) := by
  rw [exec_call, push_error _ _ _ h]
  rfl

/-- A RET with an entry resumes two above the slot below `SP`. -/
theorem exec_ret_ok {s : State} {j : Fin 16} (h : s.sp.toNat = j.val + 1) :
    exec .ret s = .next { s with sp := s.sp - 1#4, pc := s.stack[j] + 2#16 } := by
  have hne : s.sp ≠ 0#4 := by bv_omega
  have hslot : (s.sp - 1#4).toNat = j.val := by bv_omega
  rw [exec_ret, pop_ok _ hne]
  simp only [hslot]
  rfl

/-- A RET without an entry raises StackUnderflow. -/
theorem exec_ret_error {s : State} (h : s.sp = 0#4) : exec .ret s = .next (s.raise .stackUnderflow) := by
  rw [exec_ret, pop_error _ h]
  rfl

/-- A write of the stack, `SP` and `PC` changes those only. -/
theorem onlyChanges_stack (s : State) (st : Vector Word 16) (n : Nibble) (a : Word) :
    OnlyChanges [.stackPtr, .stack] s { s with stack := st, sp := n, pc := a } := fun p hp => by
  cases p <;> simp_all [Part.same, State.readV, State.readByte]

/-- A write of `SP` and `PC` changes those only. -/
theorem onlyChanges_stackPtr (s : State) (n : Nibble) (a : Word) :
    OnlyChanges [.stackPtr] s { s with sp := n, pc := a } := fun p hp => by
  cases p <;> simp_all [Part.same, State.readV, State.readByte]

/-- Settles O34: the push writes the slot at `SP`, and without room the fault is raised. -/
theorem callPushesItsOwnAddress : Obligations.CallPushesItsOwnAddress := by
  intro nnn s
  refine ⟨fun h => ?_, fun h => ?_⟩
  · refine ⟨_, exec_call_ok h, toNat_zextAddr nnn, ?_, fun j => ?_, onlyChanges_stack s _ _ _⟩
    · show (s.sp + 1#4).toNat = s.sp.toNat + 1
      bv_omega
    · exact (Vector.getElem_set s.sp.isLt j.isLt).trans (if_congr eq_comm rfl rfl)
  · exact ⟨_, exec_call_error h, raise_faulted s _⟩

/-- Settles O35: the pop reads the slot below `SP`, and without an entry the fault is raised. -/
theorem returnResumesAfterTheCall : Obligations.ReturnResumesAfterTheCall := by
  intro s
  refine ⟨fun j h => ?_, fun h => ?_⟩
  · refine ⟨_, exec_ret_ok h, rfl, ?_, onlyChanges_stackPtr s _ _⟩
    show (s.sp - 1#4).toNat = j.val
    bv_omega
  · exact ⟨_, exec_ret_error h, raise_faulted s _⟩

/-- Settles O36: the RET finds the CALL's own address in the slot at the `SP` of before the call. -/
theorem callThenReturnRoundTrip : Obligations.CallThenReturnRoundTrip := by
  intro nnn s t u hroom hcall hsp hstack
  obtain ⟨hpush, -⟩ := callPushesItsOwnAddress nnn s
  obtain ⟨t', hcall', -, htsp, hslot, -⟩ := hpush hroom
  cases hcall'.symm.trans hcall
  have hown : u.stack[(⟨s.sp.toNat, s.sp.isLt⟩ : Fin 16)] = s.pc := by rw [hstack, hslot, if_pos rfl]
  obtain ⟨hpop, -⟩ := returnResumesAfterTheCall u
  obtain ⟨w, hret, hpc, hwsp, hframe⟩ := hpop ⟨s.sp.toNat, s.sp.isLt⟩ (by rw [hsp, htsp])
  exact ⟨w, hret, by rw [hpc, hown], BitVec.eq_of_toNat_eq hwsp, hframe⟩

/-! ## Skips and jumps (41_control_flow.md R103, R105 to R109) -/

/-- The PC effect alone changes no part of the state. -/
theorem onlyChanges_nil_applyPc (s : State) (e : PcEffect) : OnlyChanges [] s (s.applyPc e) :=
  onlyChanges_applyPc (onlyChanges_refl [] s) e

/-- A skip on a test that decides `P` skips exactly when `P` holds, and writes nothing but `PC`. -/
theorem complete_skipIf (s : State) {c : Bool} {P : Prop} [Decidable P] (h : c = true ↔ P) :
    ∃ t, s.complete (.ok (s, .skipIf c)) = .next t
      ∧ t.pc = (if P then s.pc + 4#16 else s.pc + 2#16) ∧ OnlyChanges [] s t := by
  refine ⟨_, complete_ok s s _, ?_, onlyChanges_nil_applyPc s _⟩
  simp only [applyPc_pc, target_skipIf, h]

/-- Settles O32: each is a skip on the test of its condition. -/
theorem compareAndSkips : Obligations.CompareAndSkips := by
  intro x y kk s
  rw [exec_seImm, exec_sneImm, exec_seReg, exec_sneReg]
  exact ⟨complete_skipIf s beq_iff_eq, complete_skipIf s bne_iff_ne, complete_skipIf s beq_iff_eq,
    complete_skipIf s bne_iff_ne⟩

/-- Settles O33: the jump's target is the zero-extended operand, and with register 0 added the sum cannot wrap. -/
theorem jumpsSetThePc : Obligations.JumpsSetThePc := by
  intro nnn s
  rw [exec_jp, exec_jpV0]
  exact ⟨⟨_, complete_ok s s _, toNat_zextAddr nnn, onlyChanges_nil_applyPc s _⟩,
    ⟨_, complete_ok s s _, toNat_zextAddr_add_zextByte nnn _, onlyChanges_nil_applyPc s _⟩⟩

/-! ## SYS (41_control_flow.md R101, 30_encoding.md R67) -/

/-- The word of SYS is its operand: its class is 0. -/
theorem toNat_encode_sys (nnn : Addr12) : (encode (.sys nnn)).toNat = nnn.toNat := by
  rw [encode, toNat_encodeA]
  simp

/-- Settles O37: SYS is completed as a raised decode failure. -/
theorem sysIsADecodeFailure : Obligations.SysIsADecodeFailure := by
  intro nnn s
  exact ⟨_, exec_sys nnn s, raise_faulted s _, toNat_encode_sys nnn⟩

end Sys2Proof.Machine

namespace Sys2Proof.Machine

/-! ## Loads, immediate addition and logic (42_alu.md R122 to R127) -/

/-- A completed register write with the effect Next: the value, the other registers, `PC` and the frame. -/
theorem complete_writeV (s : State) (x : Nibble) (b : Byte) :
    ∃ t, s.complete (.ok (s.writeV x b, .next)) = .next t
      ∧ t.readV x = b ∧ RegsKeptBut [x] s t ∧ t.pc = s.pc + 2#16 ∧ OnlyChanges [.regs] s t := by
  refine ⟨_, complete_ok s _ _, ?_, fun r hr => ?_, rfl, onlyChanges_applyPc (onlyChanges_writeV s x b) _⟩
  · rw [readV_applyPc, readV_writeV, if_pos rfl]
  · have hx : x ≠ r := fun h => hr (by simp [h])
    rw [readV_applyPc, readV_writeV, if_neg hx]

/-- Settles O23: both loads are completed register writes. -/
theorem registerLoads : Obligations.RegisterLoads := by
  refine ⟨fun x kk s => ?_, fun x y s => ?_⟩
  · rw [exec_ldImm]
    exact complete_writeV s x kk
  · rw [exec_ldReg]
    exact complete_writeV s x (s.readV y)

/-- Settles O24: one register write, of the byte sum. -/
theorem addImmediateWrapsWithoutAFlag : Obligations.AddImmediateWrapsWithoutAFlag := by
  intro x kk s
  rw [exec_addImm]
  obtain ⟨t, ht, hx, hrest⟩ := complete_writeV s x (s.readV x + kk)
  exact ⟨t, ht, by rw [hx, BitVec.toNat_add], hrest⟩

/-- Settles O25: one register write each, of the bitwise result. -/
theorem logicInstructionsWorkBitByBit : Obligations.LogicInstructionsWorkBitByBit := by
  intro x y s
  rw [exec_orReg, exec_andReg, exec_xorReg]
  refine ⟨?_, ?_, ?_⟩
  · obtain ⟨t, ht, hx, hrest⟩ := complete_writeV s x (s.readV x ||| s.readV y)
    exact ⟨t, ht, fun b => by rw [hx, BitVec.getLsbD_or], hrest⟩
  · obtain ⟨t, ht, hx, hrest⟩ := complete_writeV s x (s.readV x &&& s.readV y)
    exact ⟨t, ht, fun b => by rw [hx, BitVec.getLsbD_and], hrest⟩
  · obtain ⟨t, ht, hx, hrest⟩ := complete_writeV s x (s.readV x ^^^ s.readV y)
    exact ⟨t, ht, fun b => by rw [hx, BitVec.getLsbD_xor], hrest⟩

/-! ## The random byte (42_alu.md R133, 10_state.md R27) -/

/-- The byte of the coming RND is the one lined up, or the free value when none is (log entry 2). -/
theorem nextRnd_eq {s : State} {r : Byte}
    (h : s.rndBytes.head? = some r ∨ s.rndBytes = [] ∧ Config.freeRnd s.rndTaken = r) : s.nextRnd = r := by
  rcases h with hhead | ⟨hnil, hfree⟩
  · rw [State.nextRnd, hhead, Option.getD_some]
  · rw [State.nextRnd, hnil, List.head?_nil, Option.getD_none, hfree]

/-- Taking the random byte changes the random input only. -/
theorem onlyChanges_takeRnd (s : State) : OnlyChanges [.rndInput] s s.takeRnd := fun p hp => by
  cases p <;> simp_all [Part.same]

/-- Settles O31: RND is a register write in the state whose random byte is taken. -/
theorem randomByteIsMasked : Obligations.RandomByteIsMasked := by
  intro x kk r s h
  obtain ⟨t, ht, hx, hkept, hpc, hframe⟩ := complete_writeV s.takeRnd x (r &&& kk)
  obtain ⟨hbytes, htaken⟩ := hframe .rndInput (by decide)
  refine ⟨t, ?_, fun b => ?_, hkept, hpc, hbytes, htaken, ?_⟩
  · rw [exec_rnd, nextRnd_eq h]
    exact ht
  · rw [hx, BitVec.getLsbD_and]
  · exact onlyChanges_trans (onlyChanges_mono (onlyChanges_takeRnd s) (by decide))
      (onlyChanges_mono hframe (by decide))

/-! ## Result and flag, in both write orders (42_alu.md R121) -/

/-- The registers after the result and then the flag: VF holds the flag, even as destination. -/
theorem readV_writeResultAndFlag_last {s : State} (ho : s.cfg.vfWriteOrder = .flagLast) (x y q : Nibble)
    (res fl : Byte → Byte → Byte) :
    (s.writeResultAndFlag x y res fl).readV q =
      if flagReg = q then fl (s.readV x) (s.readV y)
      else if x = q then res (s.readV x) (s.readV y) else s.readV q := by
  rw [writeResultAndFlag_last s x y res fl ho, readV_writeV, readV_writeV]

/-- The registers after the flag and then the result, whose operands are read again: one in VF is the flag. -/
theorem readV_writeResultAndFlag_first {s : State} (ho : s.cfg.vfWriteOrder = .flagFirst) (x y q : Nibble)
    (res fl : Byte → Byte → Byte) :
    (s.writeResultAndFlag x y res fl).readV q =
      if x = q then
        res (if flagReg = x then fl (s.readV x) (s.readV y) else s.readV x)
          (if flagReg = y then fl (s.readV x) (s.readV y) else s.readV y)
      else if flagReg = q then fl (s.readV x) (s.readV y) else s.readV q := by
  simp only [writeResultAndFlag_first s x y res fl ho, readV_writeV]

/-- What R121 says of an instruction with operands `V[x]` and `V[y]`, result `r` and flag `c`, from `s` to `t`, in
unsigned values: away from register 15, and with register 15 as `x` or `y` in each order. -/
structure WritesResultAndFlag (x y : Nibble) (r : Nat → Nat → Nat) (c : Nat) (s t : State) : Prop where
  flag : x ≠ 15#4 → (t.readV 15#4).toNat = c
  result : x ≠ 15#4 → y ≠ 15#4 → (t.readV x).toNat = r (s.readV x).toNat (s.readV y).toNat
  last : s.cfg.vfWriteOrder = .flagLast → (t.readV 15#4).toNat = c
    ∧ (x ≠ 15#4 → (t.readV x).toNat = r (s.readV x).toNat (s.readV y).toNat)
  firstAtX : s.cfg.vfWriteOrder = .flagFirst → x = 15#4 → y ≠ 15#4 → (t.readV 15#4).toNat = r c (s.readV y).toNat
  firstAtBoth : s.cfg.vfWriteOrder = .flagFirst → x = 15#4 → y = 15#4 → (t.readV 15#4).toNat = r c c
  firstAtY : s.cfg.vfWriteOrder = .flagFirst → x ≠ 15#4 → y = 15#4 → (t.readV x).toNat = r (s.readV x).toNat c
  kept : RegsKeptBut [x, 15#4] s t
  pc : t.pc = s.pc + 2#16
  frame : OnlyChanges [.regs] s t

/-- An instruction that completes result and flag writes does what R121 says, for the result `r` and the flag `c` that
its byte operations compute. -/
theorem exec_writesResultAndFlag (r : Nat → Nat → Nat) {c : Nat} {i : Instr} {s : State} {x y : Nibble}
    {res fl : Byte → Byte → Byte} (hi : exec i s = s.complete (.ok (s.writeResultAndFlag x y res fl, .next)))
    (hres : ∀ a b, (res a b).toNat = r a.toNat b.toNat) (hfl : (fl (s.readV x) (s.readV y)).toNat = c) :
    ∃ t, exec i s = .next t ∧ WritesResultAndFlag x y r c s t := by
  have hlast := fun ho q => readV_writeResultAndFlag_last (s := s) ho x y q res fl
  have hfirst := fun ho q => readV_writeResultAndFlag_first (s := s) ho x y q res fl
  refine ⟨_, hi.trans (complete_ok s _ _), ?_⟩
  constructor
  case kept =>
    intro q hq
    obtain ⟨hqx, hqf⟩ : q ≠ x ∧ q ≠ 15#4 := by simpa using hq
    exact readV_writeResultAndFlag_other s x y q res fl hqx.symm hqf.symm
  case pc => exact congrArg (· + 2#16) (keepsInvFields_writeResultAndFlag s x y res fl).pc
  case frame => exact onlyChanges_applyPc (onlyChanges_writeResultAndFlag s x y res fl) _
  case flag =>
    intro hx
    cases ho : s.cfg.vfWriteOrder with
    | flagLast => simp [hlast ho, hfl, flagReg]
    | flagFirst => simp [hfirst ho, hx, hfl, flagReg]
  case result =>
    intro hx hy
    cases ho : s.cfg.vfWriteOrder with
    | flagLast => simp [hlast ho, hx.symm, hres, flagReg]
    | flagFirst => simp [hfirst ho, hx.symm, hy.symm, hres, flagReg]
  case last =>
    intro ho
    exact ⟨by simp [hlast ho, hfl, flagReg], fun hx => by simp [hlast ho, hx.symm, hres, flagReg]⟩
  case firstAtX =>
    rintro ho rfl hy
    simp [hfirst ho, hy.symm, hres, hfl, flagReg]
  case firstAtBoth =>
    rintro ho rfl rfl
    simp [hfirst ho, hres, hfl, flagReg]
  case firstAtY =>
    rintro ho hx rfl
    simp [hfirst ho, hx.symm, hres, hfl, flagReg]

/-! ## The flags and results in unsigned values (42_alu.md R128 to R132) -/

theorem toNat_flagByte (b : Bool) : (flagByte b).toNat = b.toNat := by cases b <;> rfl

theorem toNat_carryFlag (a b : Byte) : (carryFlag a b).toNat = if a.toNat + b.toNat > 255 then 1 else 0 := by
  rw [carryFlag, toNat_flagByte, Bool.toNat, Bool.cond_decide]

theorem toNat_greaterFlag (a b : Byte) : (greaterFlag a b).toNat = if a.toNat > b.toNat then 1 else 0 := by
  rw [greaterFlag, toNat_flagByte, Bool.toNat, Bool.cond_decide]

/-- The bit a right shift shifts out is the remainder by 2. -/
theorem toNat_lowBitFlag (a : Byte) : (lowBitFlag a).toNat = a.toNat % 2 := by
  rw [lowBitFlag, toNat_flagByte, BitVec.getLsbD, Nat.toNat_testBit, pow_zero, Nat.div_one]

/-- The bit a left shift shifts out is the quotient by 128. -/
theorem toNat_highBitFlag (a : Byte) : (highBitFlag a).toNat = a.toNat / 128 := by
  have ha := a.isLt
  rw [highBitFlag, toNat_flagByte, BitVec.getLsbD, Nat.toNat_testBit]
  omega

theorem toNat_sub_byte (a b : Byte) : (a - b).toNat = (256 + a.toNat - b.toNat) % 256 := by
  bv_omega

theorem toNat_shiftRight_one (a : Byte) : (a >>> 1).toNat = a.toNat / 2 := by
  rw [BitVec.toNat_ushiftRight, Nat.shiftRight_one]

theorem toNat_shiftLeft_one (a : Byte) : (a <<< 1).toNat = 2 * a.toNat % 256 := by
  rw [BitVec.toNat_shiftLeft, Nat.shiftLeft_eq, pow_one, Nat.mul_comm]

/-! ## Arithmetic and shifts (42_alu.md R128 to R132) -/

/-- Settles O26: with both operands in VF the flag is added to itself. -/
theorem addWithCarry : Obligations.AddWithCarry := by
  rintro x y s _ _ _ rfl rfl rfl
  obtain ⟨t, ht, h⟩ := exec_writesResultAndFlag (fun a b => (a + b) % 256) (exec_addReg x y s)
    BitVec.toNat_add (toNat_carryFlag _ _)
  refine ⟨t, ht, h.flag, h.result, h.last, h.firstAtX, fun ho hx hy => ?_, h.firstAtY, h.kept, h.pc, h.frame⟩
  rw [h.firstAtBoth ho hx hy, Nat.two_mul]

/-- Settles O27: with both operands in VF the flag is subtracted from itself. -/
theorem subtractWithStrictGreaterFlag : Obligations.SubtractWithStrictGreaterFlag := by
  rintro x y s _ _ _ rfl rfl rfl
  obtain ⟨t, ht, h⟩ := exec_writesResultAndFlag (fun a b => (256 + a - b) % 256) (exec_sub x y s)
    toNat_sub_byte (toNat_greaterFlag _ _)
  refine ⟨t, ht, h.flag, h.result, h.last, h.firstAtX, fun ho hx hy => ?_, h.firstAtY, h.kept, h.pc, h.frame⟩
  rw [h.firstAtBoth ho hx hy, Nat.add_sub_cancel]

/-- Settles O28: SUB with the operands exchanged. -/
theorem reverseSubtractWithStrictGreaterFlag : Obligations.ReverseSubtractWithStrictGreaterFlag := by
  rintro x y s _ _ _ rfl rfl rfl
  obtain ⟨t, ht, h⟩ := exec_writesResultAndFlag (fun a b => (256 + b - a) % 256) (exec_subn x y s)
    (fun a b => toNat_sub_byte b a) (toNat_greaterFlag _ _)
  refine ⟨t, ht, h.flag, h.result, h.last, h.firstAtX, fun ho hx hy => ?_, h.firstAtY, h.kept, h.pc, h.frame⟩
  rw [h.firstAtBoth ho hx hy, Nat.add_sub_cancel]

/-- Settles O29: both operands are `V[x]`, so register 15 as `x` is the case of both in VF, and half a flag is 0. -/
theorem shiftRightInPlace : Obligations.ShiftRightInPlace := by
  rintro x y s _ rfl
  obtain ⟨t, ht, h⟩ := exec_writesResultAndFlag (fun a _ => a / 2) (exec_shr x y s)
    (fun a _ => toNat_shiftRight_one a) (toNat_lowBitFlag _)
  refine ⟨t, ht, fun hx => ⟨h.result hx hx, h.flag hx⟩, fun ho => (h.last ho).1, fun ho hx => ?_,
    h.kept, h.pc, h.frame⟩
  rw [h.firstAtBoth ho hx hx]
  omega

/-- Settles O30: both operands are `V[x]`, so register 15 as `x` is the case of both in VF, and a flag doubles
without wrapping. -/
theorem shiftLeftInPlace : Obligations.ShiftLeftInPlace := by
  rintro x y s _ rfl
  obtain ⟨t, ht, h⟩ := exec_writesResultAndFlag (fun a _ => 2 * a % 256) (exec_shl x y s)
    (fun a _ => toNat_shiftLeft_one a) (toNat_highBitFlag _)
  refine ⟨t, ht, fun hx => ⟨h.result hx hx, h.flag hx⟩, fun ho => (h.last ho).1, fun ho hx => ?_,
    h.kept, h.pc, h.frame⟩
  have hbyte := (s.readV x).isLt
  rw [h.firstAtBoth ho hx hx]
  omega

end Sys2Proof.Machine

namespace Sys2Proof.Machine

/-! ## Handlers that raise a fault (43_index_memory.md R146, 60_exceptions.md R174) -/

/-- A handler whose shared operation raises a fault is completed as that fault. -/
theorem complete_map_error_faulted {α : Type} {s : State} {x : Except Fault α} {f : Fault}
    (g : α → State × PcEffect) (h : x = .error f) : ∃ t, s.complete (x.map g) = .next t ∧ Faulted f s t := by
  subst h
  exact ⟨_, complete_error s f, raise_faulted s f⟩

/-- A handler whose access raises MemRange is completed as that fault, with the address the access names. -/
theorem complete_map_memRange_faulted {α : Type} {s : State} {x : Except Fault α} {m : Nat}
    (g : α → State × PcEffect) (h : ∃ a, x = .error (.memRange a) ∧ a.toNat = m) :
    ∃ t a, s.complete (x.map g) = .next t ∧ a.toNat = m ∧ Faulted (.memRange a) s t := by
  obtain ⟨a, hx, ha⟩ := h
  obtain ⟨t, ht, hf⟩ := complete_map_error_faulted g hx
  exact ⟨t, a, ht, ha, hf⟩

/-! ## The index register (43_index_memory.md R140 to R142) -/

/-- A completed write of `I` with the effect Next: the value, `PC` and the frame. -/
theorem complete_writeI (s : State) (a : Word) :
    ∃ t, s.complete (.ok ({ s with i := a }, .next)) = .next t
      ∧ t.i = a ∧ t.pc = s.pc + 2#16 ∧ OnlyChanges [.index] s t := by
  refine ⟨_, complete_ok s _ _, rfl, rfl, onlyChanges_applyPc (fun p hp => ?_) _⟩
  cases p <;> simp_all [Part.same, State.readV, State.readByte]

theorem toNat_add_zextByte (a : Word) (b : Byte) : (a + zextByte b).toNat = (a.toNat + b.toNat) % 65536 := by
  simp only [zextByte, BitVec.toNat_add, BitVec.toNat_setWidth]
  omega

/-- The glyph of a hexadecimal digit stands at the base plus five bytes a digit, and the sum does not wrap. -/
theorem toNat_glyphAddr {cfg : Config} {d : Nat} (h : d ≤ 15) :
    (glyphAddr cfg d).toNat = (fontAddr cfg.fontBase).toNat + 5 * d := by
  have hbase : (fontAddr cfg.fontBase).toNat ≤ 0x050 := by cases cfg.fontBase <;> decide
  simp only [glyphAddr, BitVec.toNat_add, BitVec.toNat_ofNat]
  omega

/-- Settles O38: one write of `I` each, of the zero-extended operand and of the 16-bit sum. -/
theorem indexLoadAndAdd : Obligations.IndexLoadAndAdd := by
  refine ⟨fun nnn s => ?_, fun x s => ?_⟩
  · rw [exec_ldI]
    obtain ⟨t, ht, hi, hrest⟩ := complete_writeI s (zextAddr nnn)
    exact ⟨t, ht, by rw [hi, toNat_zextAddr], hrest⟩
  · rw [exec_addI]
    obtain ⟨t, ht, hi, hrest⟩ := complete_writeI s (s.i + zextByte (s.readV x))
    exact ⟨t, ht, by rw [hi, toNat_add_zextByte], hrest⟩

/-- Settles O39: a digit in range writes the glyph's address to `I`; above 15 the operand check raises the fault. -/
theorem glyphLookup : Obligations.GlyphLookup := by
  intro x s
  rw [exec_ldF]
  refine ⟨fun h => ?_, fun h => complete_map_error_faulted _ (digitOperand_error s x h)⟩
  rw [digitOperand_ok s x h]
  obtain ⟨t, ht, hi, hrest⟩ := complete_writeI s (glyphAddr s.cfg (s.readV x).toNat)
  refine ⟨t, ht, fun hb => ?_, fun hb => ?_, hrest⟩
  · rw [hi, toNat_glyphAddr h, hb]
    rfl
  · rw [hi, toNat_glyphAddr h, hb]
    exact Nat.zero_add _

/-! ## Block stores (43_index_memory.md R143, R144) -/

/-- Byte `k` of a block written at `a` stands at `a + k`. -/
theorem readByte_writeBytes_at (s : State) (a : Nat) (bs : List Byte) {k : Nat} (h : k < bs.length) :
    (s.writeBytes a bs).readByte (a + k) = bs[k] := by
  simp only [readByte_writeBytes, Nat.add_sub_cancel_left]
  exact dif_pos (by omega)

/-- A completed block write of `n` bytes keeps the bytes outside its block. -/
theorem bytesKeptOutside_writeBytes (s : State) (a : Nat) {bs : List Byte} {n : Nat} (hn : bs.length = n)
    (e : PcEffect) : BytesKeptOutside a n s ((s.writeBytes a bs).applyPc e) := fun b hb => by
  subst hn
  rw [readByte_applyPc, readByte_writeBytes, dif_neg hb]

@[simp] theorem bcdDigits_length (b : Byte) : (bcdDigits b).length = 3 := rfl

/-- The three digits in unsigned values: each fits a byte. -/
theorem toNat_bcdDigits (b : Byte) :
    (bcdDigits b)[0].toNat = b.toNat / 100 ∧ (bcdDigits b)[1].toNat = b.toNat / 10 % 10
      ∧ (bcdDigits b)[2].toNat = b.toNat % 10 := by
  have hb := b.isLt
  simp only [bcdDigits, List.getElem_cons_zero, List.getElem_cons_succ, BitVec.toNat_ofNat]
  omega

/-- LD B in range writes the three digits at `I` and advances. -/
theorem exec_ldB_ok {x : Nibble} {s : State} (h : s.i.toNat + 2 ≤ 0xFFF) :
    exec (.ldB x) s = .next ((s.writeBytes s.i.toNat (bcdDigits (s.readV x))).applyPc .next) := by
  rw [exec_ldB, memWrite_ok _ _ _ (.inr (by rw [bcdDigits_length]; unfold memSize; omega))]
  rfl

/-- Settles O40: the block written is the three digits, and out of range the store raises the fault. -/
theorem bcdStoresThreeDigits : Obligations.BcdStoresThreeDigits := by
  intro x s
  refine ⟨fun h => ?_, fun h => ?_⟩
  · obtain ⟨hhundreds, htens, hones⟩ := toNat_bcdDigits (s.readV x)
    have hstored := fun k => readByte_writeBytes_at s s.i.toNat (bcdDigits (s.readV x)) (k := k)
    refine ⟨_, exec_ldB_ok h, ?_, ?_, ?_, bytesKeptOutside_writeBytes s s.i.toNat (bcdDigits_length _) _, by simp,
      onlyChanges_applyPc (onlyChanges_writeBytes s _ _) _⟩
    · exact (congrArg BitVec.toNat (hstored 0 (by simp))).trans hhundreds
    · exact (congrArg BitVec.toNat (hstored 1 (by simp))).trans htens
    · exact (congrArg BitVec.toNat (hstored 2 (by simp))).trans hones
  · rw [exec_ldB]
    exact complete_map_memRange_faulted _
      (memWrite_error s s.i _ (by rw [bcdDigits_length]; unfold memSize; omega))

/-- Settles O41: the block written is the registers `V[0]` to `V[x]`, and out of range the store raises the fault. -/
theorem blockStoreWritesTheRegisters : Obligations.BlockStoreWritesTheRegisters := by
  intro x s
  refine ⟨fun h => ?_, fun h => ?_⟩
  · exact ⟨_, exec_ldMemVx_ok h, fun j hj => readByte_writeBytes_regBlock s s.i.toNat hj,
      bytesKeptOutside_writeBytes s s.i.toNat (regBlock_length s x) _, by simp,
      onlyChanges_applyPc (onlyChanges_writeBytes s _ _) _⟩
  · rw [exec_ldMemVx]
    exact complete_map_memRange_faulted _
      (memWrite_error s s.i _ (by rw [regBlock_length]; unfold memSize; omega))

/-! ## The block load (43_index_memory.md R145) -/

/-- The bytes a block load to `V[x]` reads at `I`. -/
def State.loadBlock (s : State) (x : Nibble) : List Byte :=
  (List.range (x.toNat + 1)).map fun k => s.readByte (s.i.toNat + k)

@[simp] theorem loadBlock_length (s : State) (x : Nibble) : (s.loadBlock x).length = x.toNat + 1 := by
  simp [State.loadBlock]

theorem loadBlock_getElem (s : State) (x : Nibble) (k : Nat) (h : k < (s.loadBlock x).length) :
    (s.loadBlock x)[k] = s.readByte (s.i.toNat + k) := by
  simp [State.loadBlock]

/-- A block load in range writes the block at `I` to the registers from `V[0]` and advances. -/
theorem exec_ldVxMem_ok {x : Nibble} {s : State} (h : s.i.toNat + x.toNat ≤ 0xFFF) :
    exec (.ldVxMem x) s = .next ((s.writeRegs 0 (s.loadBlock x)).applyPc .next) := by
  rw [exec_ldVxMem, memRead_ok _ _ _ (.inr (by unfold memSize; omega))]
  rfl

/-- The registers after the block is loaded: those up to `x` from memory, those above as before. -/
theorem readV_writeRegs_loadBlock (s : State) (x j : Nibble) :
    (s.writeRegs 0 (s.loadBlock x)).readV j =
      if j.toNat ≤ x.toNat then s.readByte (s.i.toNat + j.toNat) else s.readV j := by
  have hx : 0 + (s.loadBlock x).length ≤ 16 := by
    rw [loadBlock_length]
    omega
  rw [readV_writeRegs _ _ _ hx]
  by_cases hj : j.toNat ≤ x.toNat
  · rw [if_pos hj, dif_pos (by rw [loadBlock_length]; omega), loadBlock_getElem, Nat.sub_zero]
  · rw [if_neg hj, dif_neg (by rw [loadBlock_length]; omega)]

/-- Settles O42: the bytes read at `I` are written to the registers from `V[0]`, and out of range the
load raises the fault before any write. -/
theorem blockLoadReadsTheRegisters : Obligations.BlockLoadReadsTheRegisters := by
  intro x s
  refine ⟨fun h => ?_, fun h => ?_⟩
  · refine ⟨_, exec_ldVxMem_ok h, fun j hj => ?_, fun j hj => ?_, by simp,
      onlyChanges_applyPc (onlyChanges_writeRegs s 0 _) _⟩
    · rw [readV_applyPc, readV_writeRegs_loadBlock, if_pos hj]
    · rw [readV_applyPc, readV_writeRegs_loadBlock, if_neg (by omega)]
  · rw [exec_ldVxMem]
    exact complete_map_memRange_faulted _ (memRead_error s s.i _ (by unfold memSize; omega))

end Sys2Proof.Machine

namespace Sys2Proof.Machine

/-! ## CLS (44_display.md R151) -/

/-- Settles O44: the framebuffer becomes 32 zero words, so every pixel is a bit of zero. -/
theorem clearZeroesTheFramebuffer : Obligations.ClearZeroesTheFramebuffer := by
  intro s
  refine ⟨_, exec_cls s, fun px py => ?_, rfl, rfl, onlyChanges_applyPc (fun p hp => ?_) _⟩
  · simp [State.fbOut, FrameBuffer.pixel]
  · cases p <;> simp_all [Part.same, State.readV, State.readByte]

/-! ## The sprite of a draw (44_display.md R150, R152) -/

/-- The bytes of the sprite of `n` rows at `I`. -/
def State.spriteBytes (s : State) (n : Nibble) : List Byte :=
  (List.range n.toNat).map fun k => s.readByte (s.i.toNat + k)

@[simp] theorem spriteBytes_length (s : State) (n : Nibble) : (s.spriteBytes n).length = n.toNat := by
  simp [State.spriteBytes]

theorem spriteBytes_getElem (s : State) (n : Nibble) (k : Nat) (h : k < (s.spriteBytes n).length) :
    (s.spriteBytes n)[k] = s.readByte (s.i.toNat + k) := by
  simp [State.spriteBytes]

/-- The state after a draw that is in range. -/
def State.drawn (s : State) (x y n : Nibble) : State := (s.drawSprite x y (s.spriteBytes n)).applyPc .next

@[simp] theorem drawn_i (s : State) (x y n : Nibble) : (s.drawn x y n).i = s.i := rfl
@[simp] theorem readByte_drawn (s : State) (x y n : Nibble) (a : Nat) :
    (s.drawn x y n).readByte a = s.readByte a := rfl

/-- A draw in range draws the sprite at `I` and advances. -/
theorem exec_drw_ok {x y n : Nibble} {s : State} (h : n = 0#4 ∨ s.i.toNat + (n.toNat - 1) ≤ 0xFFF) :
    exec (.drw x y n) s = .next (s.drawn x y n) := by
  have hr : n.toNat = 0 ∨ s.i.toNat + n.toNat ≤ memSize := by
    unfold memSize
    rcases h with rfl | h
    · exact .inl rfl
    · omega
  rw [exec_drw, memRead_ok _ _ _ hr]
  rfl

/-- The pixel `(px, py)` is where bit `bit` of sprite row `row` lands. -/
def State.Covers (s : State) (x y : Nibble) (row bit : Nat) (px : Fin 64) (py : Fin 32) : Prop :=
  px.val = ((s.readV x).toNat + bit) % 64 ∧ py.val = ((s.readV y).toNat + row) % 32

theorem covers_iff {s : State} {x y : Nibble} {row bit : Nat} {px : Fin 64} {py : Fin 32} :
    s.Covers x y row bit px py ↔ px = spriteColumn (s.readV x) bit ∧ py = spriteRow (s.readV y) row := by
  simp only [State.Covers, Fin.ext_iff, spriteColumn, spriteRow, Fin.ofNat]

/-- Some set bit of the sprite of `n` rows lands on a pixel that is `v`. -/
def State.SpriteMeets (s : State) (x y n : Nibble) (v : Bool) : Prop :=
  ∃ row bit px py, row < n.toNat ∧ bit < 8 ∧ px.val = ((s.readV x).toNat + bit) % 64
    ∧ py.val = ((s.readV y).toNat + row) % 32 ∧ s.fbOut px py = v
    ∧ (s.readByte (s.i.toNat + row)).getLsbD (7 - bit) = true

/-- A covered pixel is XORed with its bit of the sprite. -/
theorem fbOut_drawn_covered {s : State} {x y n : Nibble} {row bit : Nat} {px : Fin 64} {py : Fin 32}
    (hrow : row < n.toNat) (hbit : bit < 8) (hc : s.Covers x y row bit px py) :
    (s.drawn x y n).fbOut px py = (s.fbOut px py ^^ (s.readByte (s.i.toNat + row)).getLsbD (7 - bit)) := by
  obtain ⟨rfl, rfl⟩ := covers_iff.mp hc
  have hl := spriteBytes_length s n
  refine (pixel_drawRows_covered _ _ _ _ (s.fb, false) (by omega) row bit (by omega) (by omega) hbit).trans ?_
  rw [spriteBytes_getElem]
  rfl

/-- A pixel that no bit of the sprite covers is kept. -/
theorem fbOut_drawn_kept {s : State} {x y n : Nibble} {px : Fin 64} {py : Fin 32}
    (h : ∀ row bit, row < n.toNat → bit < 8 → ¬ s.Covers x y row bit px py) :
    (s.drawn x y n).fbOut px py = s.fbOut px py := by
  have hl := spriteBytes_length s n
  refine pixel_drawRows_kept _ _ _ _ (s.fb, false) px py fun row bit _ hrow hbit hc => ?_
  exact h row bit (by omega) hbit (covers_iff.mpr ⟨hc.1.symm, hc.2.symm⟩)

/-- The collision of a draw: a set bit of the sprite landed on a set pixel. -/
theorem drawRows_spriteBytes_collision (s : State) (x y n : Nibble) :
    (drawRows (s.readV x) (s.readV y) 0 (s.fb, false) (s.spriteBytes n)).2 = true ↔ s.SpriteMeets x y n true := by
  have hl := spriteBytes_length s n
  rw [drawRows_collision _ _ _ _ _ (by omega)]
  simp only [Bool.false_eq_true, false_or, spriteBytes_getElem, Nat.sub_zero]
  constructor
  · rintro ⟨row, bit, -, hrow, hbit, hset, hone⟩
    exact ⟨row, bit, _, _, by omega, hbit, rfl, rfl, hset, hone⟩
  · rintro ⟨row, bit, px, py, hrow, hbit, hpx, hpy, hset, hone⟩
    obtain ⟨rfl, rfl⟩ := covers_iff.mp ⟨hpx, hpy⟩
    exact ⟨row, bit, by omega, by omega, hbit, hset, hone⟩

/-- VF after a draw is the collision. -/
theorem readV_drawn_flag (s : State) (x y n : Nibble) [Decidable (s.SpriteMeets x y n true)] :
    (s.drawn x y n).readV 15#4 = if s.SpriteMeets x y n true then 1#8 else 0#8 := by
  have hv : (s.drawn x y n).readV 15#4
      = flagByte (drawRows (s.readV x) (s.readV y) 0 (s.fb, false) (s.spriteBytes n)).2 :=
    (readV_writeV s flagReg 15#4 _).trans (if_pos rfl)
  rw [hv, flagByte]
  simp only [drawRows_spriteBytes_collision]
  rfl

/-- A draw keeps every register but VF. -/
theorem readV_drawn_of_ne {s : State} {x y n r : Nibble} (h : r ≠ 15#4) : (s.drawn x y n).readV r = s.readV r :=
  (readV_writeV s flagReg r _).trans (if_neg h.symm)

/-! ## DRW (44_display.md R152, R153) -/

/-- Settles O45: pixel by pixel, the covered ones and the others; VF is the collision. -/
theorem drawXorsTheSprite : Obligations.DrawXorsTheSprite := by
  classical
  intro x y n s h
  refine ⟨_, exec_drw_ok h, fun row bit hrow hbit px py hpx hpy => fbOut_drawn_covered hrow hbit ⟨hpx, hpy⟩,
    fun px py hc => fbOut_drawn_kept hc, fun hm => (readV_drawn_flag s x y n).trans (if_pos hm),
    fun hm => (readV_drawn_flag s x y n).trans (if_neg hm), fun r hr => readV_drawn_of_ne (by simpa using hr), rfl, rfl,
    onlyChanges_applyPc (onlyChanges_drawSprite s x y _) _⟩

/-- Settles O46: the sprite's bytes are read before anything is written, and out of range the read raises the fault. -/
theorem drawOutOfRangeRaisesMemRange : Obligations.DrawOutOfRangeRaisesMemRange := by
  intro x y n s hn h
  have hn0 : n.toNat ≠ 0 := fun h0 => hn (BitVec.eq_of_toNat_eq h0)
  rw [exec_drw]
  exact complete_map_memRange_faulted _ (memRead_error s s.i _ ⟨hn0, by unfold memSize; omega⟩)

section
variable {s : State} {x y n : Nibble} (hx : x ≠ 15#4) (hy : y ≠ 15#4)
include hx hy

/-- A sprite placed by registers other than VF is placed the same after it was drawn. -/
theorem covers_drawn {row bit : Nat} {px : Fin 64} {py : Fin 32} :
    (s.drawn x y n).Covers x y row bit px py ↔ s.Covers x y row bit px py := by
  rw [covers_iff, covers_iff, readV_drawn_of_ne hx, readV_drawn_of_ne hy]

/-- Drawn twice, a covered pixel is XORed with one bit twice, and every other pixel is kept twice. -/
theorem fbOut_drawn_drawn (px : Fin 64) (py : Fin 32) :
    ((s.drawn x y n).drawn x y n).fbOut px py = s.fbOut px py := by
  by_cases hc : ∃ row bit, row < n.toNat ∧ bit < 8 ∧ s.Covers x y row bit px py
  · obtain ⟨row, bit, hrow, hbit, hc⟩ := hc
    rw [fbOut_drawn_covered hrow hbit ((covers_drawn hx hy).mpr hc), fbOut_drawn_covered hrow hbit hc, drawn_i,
      readByte_drawn, Bool.xor_assoc, Bool.xor_self, Bool.xor_false]
  · have hs : ∀ row bit, row < n.toNat → bit < 8 → ¬ s.Covers x y row bit px py :=
      fun row bit hrow hbit h => hc ⟨row, bit, hrow, hbit, h⟩
    rw [fbOut_drawn_kept fun row bit hrow hbit h => hs row bit hrow hbit ((covers_drawn hx hy).mp h),
      fbOut_drawn_kept hs]

/-- After the draw a pixel under a set bit is set exactly when it was 0 before. -/
theorem spriteMeets_drawn : (s.drawn x y n).SpriteMeets x y n true ↔ s.SpriteMeets x y n false := by
  simp only [State.SpriteMeets, readV_drawn_of_ne hx, readV_drawn_of_ne hy, drawn_i, readByte_drawn]
  refine exists₄_congr fun row bit px py => and_congr_right fun hrow => and_congr_right fun hbit =>
    and_congr_right fun hpx => and_congr_right fun hpy => and_congr_left fun hone => ?_
  rw [fbOut_drawn_covered hrow hbit ⟨hpx, hpy⟩, hone, Bool.xor_true, Bool.not_eq_true']

end

/-- Settles O47: the second draw is the draw of the same sprite in the picture the first one left. -/
theorem drawingTwiceRestoresTheFramebuffer : Obligations.DrawingTwiceRestoresTheFramebuffer := by
  classical
  intro x y n s t u hx hy h ht hu
  obtain rfl : s.drawn x y n = t := Host.Outcome.next.inj ((exec_drw_ok h).symm.trans ht)
  obtain rfl : (s.drawn x y n).drawn x y n = u :=
    Host.Outcome.next.inj ((exec_drw_ok (s := s.drawn x y n) h).symm.trans hu)
  refine ⟨fbOut_drawn_drawn hx hy, ?_⟩
  have hflag : ((s.drawn x y n).drawn x y n).readV 15#4 = 1#8 ↔ (s.drawn x y n).SpriteMeets x y n true := by
    rw [readV_drawn_flag]
    split <;> simp [*]
  exact hflag.trans (spriteMeets_drawn hx hy)

end Sys2Proof.Machine

namespace Sys2Proof.Machine

/-! ## Skips on a key (45_keypad_timers.md R160, R161) -/

/-- Settles O48: with an index in range each is a skip on the key's bit or its negation; above 15 the operand check
raises the fault. -/
theorem keySkips : Obligations.KeySkips := by
  intro x s
  rw [exec_skp, exec_sknp]
  refine ⟨fun h => ?_, fun h => ?_⟩
  · rw [keyOperand_ok s x h]
    exact ⟨complete_skipIf s Iff.rfl, complete_skipIf s (Bool.not_eq_true' _).to_iff⟩
  · have herr := keyOperand_error s x h
    exact ⟨complete_map_error_faulted _ herr, complete_map_error_faulted _ herr⟩

/-! ## The timers and the key wait (45_keypad_timers.md R162 to R165) -/

/-- A write of `DT` changes the delay timer only. -/
theorem onlyChanges_delay (s : State) (b : Byte) : OnlyChanges [.delay] s { s with dt := b } := fun p hp => by
  cases p <;> simp_all [Part.same, State.readV, State.readByte]

/-- A write of `ST` changes the sound timer only. -/
theorem onlyChanges_sound (s : State) (b : Byte) : OnlyChanges [.sound] s { s with st := b } := fun p hp => by
  cases p <;> simp_all [Part.same, State.readV, State.readByte]

/-- A write of the wait changes the wait only. -/
theorem onlyChanges_wait (s : State) (w : Wait) : OnlyChanges [.wait] s { s with wait := w } := fun p hp => by
  cases p <;> simp_all [Part.same, State.readV, State.readByte]

/-- Settles O49: a register write from `DT`, and one timer write each from `V[x]`. -/
theorem timerMoves : Obligations.TimerMoves := by
  intro x s
  rw [exec_ldVxDt, exec_ldDtVx, exec_ldStVx]
  exact ⟨complete_writeV s x s.dt,
    ⟨_, complete_ok s _ _, rfl, rfl, onlyChanges_applyPc (onlyChanges_delay s _) _⟩,
    ⟨_, complete_ok s _ _, rfl, rfl, onlyChanges_applyPc (onlyChanges_sound s _) _⟩⟩

/-- Settles O50: one write of the wait, and `PC` advances; the keys are not read. -/
theorem keyWaitIsArmed : Obligations.KeyWaitIsArmed := by
  intro x s
  rw [exec_ldVxK]
  exact ⟨_, complete_ok s _ _, rfl, rfl, onlyChanges_applyPc (onlyChanges_wait s _) _⟩

end Sys2Proof.Machine

namespace Sys2Proof.Machine

/-! ## What a tick can do to the fault record (60_exceptions.md R170, R174) -/

/-- No instruction has the fault record among its own parts. -/
theorem fault_not_mem_writes (i : Instr) : Part.fault ∉ writes i := by
  cases i <;> simp [writes]

/-- An instruction keeps the fault record, or does nothing but raise a fault. -/
theorem exec_fault_cases {i : Instr} {s t : State} (h : exec i s = .next t) :
    t.fault = s.fault ∨ ∃ f, t = s.raise f := by
  rcases exec_cases i s t h with hraise | hframe
  · exact .inr hraise
  · exact .inl (hframe .fault (fault_not_mem_writes i))

/-- A tick keeps the fault record, or does nothing after phases P1, P2 and P4 but raise a fault. -/
theorem tick_fault_cases {s t : State} {k : Keys} (h : s.tick k = .next t) :
    t.fault = s.fault ∨ ∃ f, t = (s.latch k).countTimers.raise f := by
  rcases tick_cases s t k h with ⟨-, rfl⟩ | ⟨-, r, -, rfl⟩ | ⟨hh, hw, -⟩
  · exact .inl rfl
  · exact .inl (onlyChanges_resolveWait (s.latch k) r .fault (by decide))
  · rcases tick_running_cases s t k hh hw h with ⟨f, hf, -⟩ | ⟨i, -, hx⟩
    · exact .inr ⟨f, hf⟩
    · exact exec_fault_cases hx

/-- A raised fault that changes the record fills it, with the `PC` it is raised at. -/
theorem fault_raise_of_changed {s : State} {f : Fault} (hne : (s.raise f).fault ≠ s.fault) :
    (s.raise f).fault = { cause := f.cause, info := f.info, pc := s.pc } := by
  obtain ⟨-, -, hnone, hsome⟩ := raise_faulted s f
  by_cases hc : s.fault.cause = .noFault
  · exact hnone hc
  · exact absurd (hsome hc) hne

/-- Settles O19: a tick that does not keep the record raises a fault, and that keeps a record that stands. -/
theorem faultRecordIsSticky : Obligations.FaultRecordIsSticky := by
  intro s t k h hc
  rcases tick_fault_cases h with hkept | ⟨f, rfl⟩
  · exact hkept
  · obtain ⟨-, -, -, hsome⟩ := raise_faulted (s.latch k).countTimers f
    exact hsome hc

/-- Settles O20: a tick that changes the record raises a fault, after which the machine stands still. -/
theorem faultingTickIsPrecise : Obligations.FaultingTickIsPrecise := by
  intro s t k h hne
  rcases tick_fault_cases h with hkept | ⟨f, rfl⟩
  · exact absurd hkept hne
  · obtain ⟨hpc, hredraw, hkeys, hdt, hst, hframe⟩ := standsStill_raise s k f
    have hrecord := fault_raise_of_changed (s := (s.latch k).countTimers) hne
    exact ⟨hpc, congrArg FaultRecord.pc hrecord, hkeys, hredraw, hdt, hst, onlyChanges_mono hframe (by decide)⟩

/-! ## Totality (60_exceptions.md R173, R189) -/

/-- No instruction has the configuration among its own parts. -/
theorem config_not_mem_writes (i : Instr) : Part.config ∉ writes i := by
  cases i <;> simp [writes]

/-- Settles O22: the configuration is no part that an instruction or a phase of the tick writes. -/
theorem everyTickAnswersANextState : Obligations.EveryTickAnswersANextState := by
  refine ⟨fun i s => ?_, fun s k => ?_⟩
  · obtain ⟨t, ht⟩ := exec_next i s
    exact ⟨t, ht, exec_keeps i s t .config ht (config_not_mem_writes i) (by decide)⟩
  · obtain ⟨t, ht⟩ := tick_next s k
    refine ⟨t, ht, ?_⟩
    by_contra hc
    obtain ⟨-, -, i, -, hm, -⟩ := executes_of_part_changed (p := .config) ht hc (by decide) (by decide)
    exact config_not_mem_writes i hm

/-! ## Which fault a shared operation raises, and when (60_exceptions.md R171) -/

theorem push_eq_error {s : State} {a target : Word} {f : Fault} (h : s.push a target = .error f) :
    f = .stackOverflow target ∧ s.sp = 15#4 := by
  unfold State.push at h
  split at h <;> cases h
  exact ⟨rfl, ‹_›⟩

/-- A push that answers keeps the fault record. -/
theorem fault_of_push {s t : State} {a target : Word} (h : s.push a target = .ok t) : t.fault = s.fault := by
  unfold State.push at h
  split at h <;> cases h
  rfl

theorem pop_eq_error {s : State} {f : Fault} (h : s.pop = .error f) : f = .stackUnderflow ∧ s.sp = 0#4 := by
  unfold State.pop at h
  split at h <;> cases h
  exact ⟨rfl, ‹_›⟩

/-- A pop that answers keeps the fault record. -/
theorem fault_of_pop {s : State} {p : Word × State} (h : s.pop = .ok p) : p.2.fault = s.fault := by
  unfold State.pop at h
  split at h <;> cases h
  rfl

theorem keyOperand_eq_error {s : State} {x : Nibble} {f : Fault} (h : s.keyOperand x = .error f) :
    f = .keyIndexRange (s.readV x) ∧ (s.readV x).toNat > 15 := by
  unfold State.keyOperand at h
  split at h <;> cases h
  exact ⟨rfl, ‹_›⟩

theorem digitOperand_eq_error {s : State} {x : Nibble} {f : Fault} (h : s.digitOperand x = .error f) :
    f = .glyphIndexRange (s.readV x) ∧ (s.readV x).toNat > 15 := by
  unfold State.digitOperand at h
  split at h <;> cases h
  exact ⟨rfl, ‹_›⟩

/-- `f` is the MemRange fault of an access of `len` bytes from `addr`, which is out of range. -/
structure IsRangeFault (addr : Word) (len : Nat) (f : Fault) : Prop where
  cause : f.cause = .memRange
  info : f.info.toNat = max addr.toNat 0x1000
  nonempty : len ≠ 0
  outside : addr.toNat + (len - 1) > 0xFFF

theorem isRangeFault_of_rangeFault {addr : Word} {len : Nat} {f : Fault} (h : rangeFault addr len = some f) :
    IsRangeFault addr len f := by
  have hout : ¬ (len = 0 ∨ addr.toNat + len ≤ memSize) := fun hr => by
    cases ((rangeFault_none addr len).mpr hr).symm.trans h
  unfold memSize at hout
  obtain ⟨a, ha, hmax⟩ := rangeFault_some addr len (by unfold memSize; omega)
  cases ha.symm.trans h
  exact ⟨rfl, hmax, by omega, by omega⟩

theorem isRangeFault_of_memRead {s : State} {addr : Word} {len : Nat} {f : Fault}
    (h : s.memRead addr len = .error f) : IsRangeFault addr len f := by
  unfold State.memRead at h
  split at h <;> cases h
  exact isRangeFault_of_rangeFault ‹_›

theorem isRangeFault_of_memWrite {s : State} {addr : Word} {bs : List Byte} {f : Fault}
    (h : s.memWrite addr bs = .error f) : IsRangeFault addr bs.length f := by
  unfold State.memWrite at h
  split at h <;> cases h
  exact isRangeFault_of_rangeFault ‹_›

/-! ## Which instruction raises which fault (60_exceptions.md R171, R175) -/

/-- A handler that maps a shared operation, and keeps the record where the operation answers, changes the record only
by the fault that the operation raises. -/
theorem record_of_complete_map_changed {α : Type} {s t : State} {x : Except Fault α} {g : α → State × PcEffect}
    (h : s.complete (x.map g) = .next t) (hne : t.fault ≠ s.fault)
    (hkeep : ∀ a, x = .ok a → (g a).1.fault = s.fault) :
    ∃ f, x = .error f ∧ t.fault.cause = f.cause ∧ t.fault.info = f.info := by
  cases x with
  | ok a =>
    cases h
    exact absurd (hkeep a rfl) hne
  | error f =>
    cases h
    rw [fault_raise_of_changed hne]
    exact ⟨f, rfl, rfl, rfl⟩

/-- A block read that changes the record was out of range. -/
theorem record_of_complete_memRead_changed {s t : State} {addr : Word} {len : Nat}
    {g : List Byte → State × PcEffect} (h : s.complete ((s.memRead addr len).map g) = .next t)
    (hne : t.fault ≠ s.fault) (hkeep : ∀ bs, (g bs).1.fault = s.fault) :
    t.fault.cause = .memRange ∧ t.fault.info.toNat = max addr.toNat 0x1000
      ∧ len ≠ 0 ∧ addr.toNat + (len - 1) > 0xFFF := by
  obtain ⟨f, hf, hcause, hinfo⟩ := record_of_complete_map_changed h hne fun bs _ => hkeep bs
  obtain ⟨hc, hi, hlen, hout⟩ := isRangeFault_of_memRead hf
  exact ⟨hcause.trans hc, hinfo ▸ hi, hlen, hout⟩

/-- A block store that changes the record was out of range. -/
theorem record_of_complete_memWrite_changed {s t : State} {addr : Word} {bs : List Byte}
    (h : s.complete ((s.memWrite addr bs).map fun u => (u, .next)) = .next t) (hne : t.fault ≠ s.fault) :
    t.fault.cause = .memRange ∧ t.fault.info.toNat = max addr.toNat 0x1000
      ∧ addr.toNat + (bs.length - 1) > 0xFFF := by
  obtain ⟨f, hf, hcause, hinfo⟩ := record_of_complete_map_changed h hne fun u hu => by
    rw [eq_writeBytes_of_memWrite hu, writeBytes_fault]
  obtain ⟨hc, hi, -, hout⟩ := isRangeFault_of_memWrite hf
  exact ⟨hcause.trans hc, hinfo ▸ hi, hout⟩

theorem toNat_zextByte (b : Byte) : (zextByte b).toNat = b.toNat := by
  simp only [zextByte, BitVec.toNat_setWidth]
  omega

/-- An SKP or SKNP that changes the record had an index above 15. -/
theorem record_of_complete_keyOperand_changed {s t : State} {x : Nibble} {c : Nat → Bool}
    (h : s.complete ((s.keyOperand x).map fun k => (s, .skipIf (c k))) = .next t) (hne : t.fault ≠ s.fault) :
    t.fault.cause = .keyIndexRange ∧ t.fault.info.toNat = (s.readV x).toNat ∧ (s.readV x).toNat > 15 := by
  obtain ⟨f, hf, hcause, hinfo⟩ := record_of_complete_map_changed h hne fun _ _ => rfl
  obtain ⟨rfl, hx⟩ := keyOperand_eq_error hf
  exact ⟨hcause, hinfo ▸ toNat_zextByte _, hx⟩

/-- Settles O21: each of the ten maps the shared operation that raises its fault; the other handlers raise none. -/
theorem eachInstructionRaisesOnlyItsOwnFault : Obligations.EachInstructionRaisesOnlyItsOwnFault := by
  intro i s t h hne
  cases i with
  | sys nnn =>
    cases h
    rw [fault_raise_of_changed hne]
    exact ⟨rfl, toNat_encode_sys nnn⟩
  | call nnn =>
    obtain ⟨f, hf, hcause, hinfo⟩ := record_of_complete_map_changed h hne fun _ => fault_of_push
    obtain ⟨rfl, hsp⟩ := push_eq_error hf
    exact ⟨hcause, hinfo ▸ toNat_zextAddr nnn, hsp⟩
  | ret =>
    obtain ⟨f, hf, hcause, hinfo⟩ := record_of_complete_map_changed h hne fun _ => fault_of_pop
    obtain ⟨rfl, hsp⟩ := pop_eq_error hf
    exact ⟨hcause, hinfo, hsp⟩
  | drw x y n =>
    obtain ⟨hcause, hinfo, hlen, hout⟩ := record_of_complete_memRead_changed h hne fun _ => rfl
    exact ⟨hcause, hinfo, fun hn => hlen (congrArg BitVec.toNat hn), hout⟩
  | ldVxMem x =>
    obtain ⟨hcause, hinfo, -, hout⟩ := record_of_complete_memRead_changed h hne fun bs => writeRegs_fault bs s 0
    exact ⟨hcause, hinfo, hout⟩
  | ldB x => exact record_of_complete_memWrite_changed h hne
  | ldMemVx x =>
    obtain ⟨hcause, hinfo, hout⟩ := record_of_complete_memWrite_changed h hne
    rw [regBlock_length] at hout
    exact ⟨hcause, hinfo, hout⟩
  | skp | sknp => exact record_of_complete_keyOperand_changed h hne
  | ldF x =>
    obtain ⟨f, hf, hcause, hinfo⟩ := record_of_complete_map_changed h hne fun _ _ => rfl
    obtain ⟨rfl, hx⟩ := digitOperand_eq_error hf
    exact ⟨hcause, hinfo ▸ toNat_zextByte _, hx⟩
  | addReg | sub | shr | subn | shl =>
    cases h
    exact hne (keepsInvFields_writeResultAndFlag _ _ _ _ _).fault
  | cls | jp | jpV0 | seImm | sneImm | seReg | sneReg | ldImm | addImm | ldReg | orReg | andReg | xorReg | rnd
  | ldVxDt | ldVxK | ldDtVx | ldStVx | ldI | addI =>
    cases h
    exact hne rfl

/-! ## The keypad snapshot as a parameter (60_exceptions.md R179) -/

/-- The state with another keypad snapshot. -/
def State.setKeys (s : State) (k : Keys) : State := { s with keys := k }

theorem raise_setKeys (s : State) (k : Keys) (f : Fault) : (s.setKeys k).raise f = (s.raise f).setKeys k := by
  simp only [raise_eq]
  rfl

theorem writeBytes_setKeys (bs : List Byte) (s : State) (k : Keys) (a : Nat) :
    (s.setKeys k).writeBytes a bs = (s.writeBytes a bs).setKeys k := by
  induction bs generalizing s a with
  | nil => rfl
  | cons b bs ih => exact ih (s.writeByte a b) (a + 1)

theorem writeRegs_setKeys (bs : List Byte) (s : State) (k : Keys) (n : Nat) :
    (s.setKeys k).writeRegs n bs = (s.writeRegs n bs).setKeys k := by
  induction bs generalizing s n with
  | nil => rfl
  | cons b bs ih => exact ih (s.writeV (BitVec.ofNat 4 n) b) (n + 1)

theorem writeResultAndFlag_setKeys (s : State) (k : Keys) (x y : Nibble) (res fl : Byte → Byte → Byte) :
    (s.setKeys k).writeResultAndFlag x y res fl = (s.writeResultAndFlag x y res fl).setKeys k := by
  cases ho : s.cfg.vfWriteOrder with
  | flagLast =>
    rw [writeResultAndFlag_last s x y res fl ho]
    exact writeResultAndFlag_last (s.setKeys k) x y res fl ho
  | flagFirst =>
    rw [writeResultAndFlag_first s x y res fl ho]
    exact writeResultAndFlag_first (s.setKeys k) x y res fl ho

/-- The instruction `i` goes by no key: under another snapshot it ends in the same state, but for the snapshot. -/
def KeyBlind (i : Instr) : Prop :=
  ∀ (s : State) (k : Keys), ∃ t, exec i s = .next t ∧ exec i (s.setKeys k) = .next (t.setKeys k)

/-- A handler that answers the same writes under another snapshot completes in the same state, but for it. -/
theorem complete_ok_setKeys (s : State) {u u' : State} {k : Keys} (e : PcEffect) (hu : u' = u.setKeys k) :
    (s.setKeys k).complete (.ok (u', e)) = .next ((u.applyPc e).setKeys k) := by
  subst hu
  rfl

/-- A handler that maps a shared operation goes by no key when the operation and the mapping do not. -/
theorem complete_map_setKeys {α : Type} {s : State} {k : Keys} (x : Except Fault α) {g g' : α → State}
    {e : PcEffect} (hg : ∀ a, g' a = (g a).setKeys k) :
    ∃ t, s.complete (x.map fun a => (g a, e)) = .next t
      ∧ (s.setKeys k).complete (x.map fun a => (g' a, e)) = .next (t.setKeys k) := by
  cases x with
  | error f => exact ⟨_, rfl, congrArg _ (raise_setKeys s k f)⟩
  | ok a => exact ⟨_, rfl, complete_ok_setKeys s e (hg a)⟩

theorem complete_memWrite_setKeys (s : State) (k : Keys) (a : Word) (bs : List Byte) :
    ∃ t, s.complete ((s.memWrite a bs).map fun u => (u, .next)) = .next t
      ∧ (s.setKeys k).complete (((s.setKeys k).memWrite a bs).map fun u => (u, .next)) = .next (t.setKeys k) := by
  unfold State.memWrite
  cases rangeFault a bs.length with
  | some f => exact ⟨_, rfl, congrArg _ (raise_setKeys s k f)⟩
  | none => exact ⟨_, rfl, complete_ok_setKeys s _ (writeBytes_setKeys bs s k a.toNat)⟩

theorem keyBlind_call (nnn : Addr12) : KeyBlind (.call nnn) := fun s k => by
  by_cases hsp : s.sp = 15#4
  · exact ⟨_, exec_call_error hsp,
      (exec_call_error (s := s.setKeys k) hsp).trans (congrArg _ (raise_setKeys s k _))⟩
  · exact ⟨_, exec_call_ok hsp, exec_call_ok (s := s.setKeys k) hsp⟩

theorem keyBlind_ret : KeyBlind .ret := fun s k => by
  by_cases hsp : s.sp = 0#4
  · exact ⟨_, exec_ret_error hsp, (exec_ret_error (s := s.setKeys k) hsp).trans (congrArg _ (raise_setKeys s k _))⟩
  · have hslot : s.sp.toNat = (⟨s.sp.toNat - 1, by omega⟩ : Fin 16).val + 1 := by
      show s.sp.toNat = s.sp.toNat - 1 + 1
      bv_omega
    exact ⟨_, exec_ret_ok hslot, exec_ret_ok (s := s.setKeys k) hslot⟩

/-- Only SKP and SKNP go by the keys. -/
theorem keyBlind_of_not_key_skip {i : Instr} (hskp : ∀ x, i ≠ .skp x) (hsknp : ∀ x, i ≠ .sknp x) : KeyBlind i := by
  intro s k
  cases i with
  | skp x => exact absurd rfl (hskp x)
  | sknp x => exact absurd rfl (hsknp x)
  | sys nnn => exact ⟨_, rfl, congrArg _ (raise_setKeys s k _)⟩
  | call nnn => exact keyBlind_call nnn s k
  | ret => exact keyBlind_ret s k
  | drw x y n => exact complete_map_setKeys (s.memRead s.i n.toNat) fun _ => rfl
  | ldF x => exact complete_map_setKeys (s.digitOperand x) fun _ => rfl
  | ldVxMem x =>
    exact complete_map_setKeys (s.memRead s.i (x.toNat + 1)) fun bs => writeRegs_setKeys bs s k 0
  | ldB x => exact complete_memWrite_setKeys s k s.i (bcdDigits (s.readV x))
  | ldMemVx x => exact complete_memWrite_setKeys s k s.i (s.regBlock x)
  | addReg | sub | shr | subn | shl =>
    exact ⟨_, rfl, complete_ok_setKeys s _ (writeResultAndFlag_setKeys s k _ _ _ _)⟩
  | cls | jp | jpV0 | seImm | sneImm | seReg | sneReg | ldImm | addImm | ldReg | orReg | andReg | xorReg | rnd
  | ldVxDt | ldVxK | ldDtVx | ldStVx | ldI | addI => exact ⟨_, rfl, rfl⟩

/-- The tick of a running machine that executes neither SKP nor SKNP goes by no key. -/
theorem tick_running_setKeys {s : State} (k l : Keys) (hh : s.halted = false) (hw : s.wait = .running)
    (hno : ¬ ∃ x, s.executes (.skp x) ∨ s.executes (.sknp x)) :
    ∃ t, s.tick k = .next t ∧ s.tick l = .next (t.setKeys l) := by
  by_cases hp : s.pc.toNat ≤ 0xFFE
  · cases hd : decodeWord s.opcodeAtPc with
    | error e =>
      have hn : NotExecuted s.opcodeAtPc := .inl ⟨e, hd⟩
      exact ⟨_, tick_notExecuted k hh hw hp hn,
        (tick_notExecuted l hh hw hp hn).trans (congrArg _ (raise_setKeys (s.latch k).countTimers l _))⟩
    | ok i =>
      have he : s.executes i := ⟨hp, hd⟩
      have hblind : KeyBlind i :=
        keyBlind_of_not_key_skip (fun x hx => hno ⟨x, .inl (hx ▸ he)⟩) (fun x hx => hno ⟨x, .inr (hx ▸ he)⟩)
      rw [tick_executes s k i hh hw he, tick_executes s l i hh hw he]
      exact hblind (s.latch k).countTimers l
  · have hp : s.pc.toNat > 0xFFE := Nat.lt_of_not_le hp
    exact ⟨_, tick_fetch_error k hh hw hp,
      (tick_fetch_error l hh hw hp).trans (congrArg _ (raise_setKeys (s.latch k).countTimers l _))⟩

/-- Settles O55: a halted machine's tick is the identity, and a running one's goes by no key. -/
theorem keysReachOnlySkipsAndTheWait : Obligations.KeysReachOnlySkipsAndTheWait := by
  intro s k l hw hno
  cases hh : s.halted with
  | true => exact ⟨s, tick_halted k hh, tick_halted l hh⟩
  | false => exact tick_running_setKeys k l hh hw hno

end Sys2Proof.Machine

namespace Sys2Proof.Machine

/-! ## Load (60_exceptions.md R188, 70_reset_and_hazards.md R202) -/

/-- A load that is not refused is a block write at 0x200, then a jump there. -/
theorem load_ok (s : State) {image : List Byte} (h : image.length ≤ maxImage) :
    s.load image = .next ((s.writeBytes loadBase.toNat image).applyPc (.jump loadBase)) := if_pos h

theorem load_refused (s : State) {image : List Byte} (h : image.length > maxImage) :
    s.load image = .refused .imageTooLong := if_neg (Nat.not_le_of_gt h)

/-- An image that is not refused ends below 0x1000 (00_scope.md R5). -/
theorem loadBase_add_le_memSize {image : List Byte} (h : image.length ≤ maxImage) :
    loadBase.toNat + image.length ≤ memSize :=
  Nat.add_le_add_left h 0x200

/-- Settles O58: the block write gives the bytes and the frame, the jump the `PC`. -/
theorem loadPlacesTheImage : Obligations.LoadPlacesTheImage := by
  intro s image
  refine ⟨fun h => ⟨_, load_ok s h, rfl, fun j hj => ?_, fun b hb => ?_, ?_⟩, load_refused s⟩
  · exact (readByte_writeBytes image s 0x200 (0x200 + j)).trans (by simp [hj])
  · exact (readByte_writeBytes image s 0x200 b).trans (dif_neg hb)
  · exact onlyChanges_applyPc (onlyChanges_writeBytes s _ image) _

/-! ## The invariant at the start (70_reset_and_hazards.md R200, R204) -/

theorem resetWith_inv (cfg : Config) : (State.resetWith cfg).Inv where
  memWf := reset_wf cfg
  pcBound := Nat.zero_le _
  stackBound k := by simp [State.resetWith]
  faultNone _ := ⟨rfl, rfl⟩
  faultPc hc := absurd rfl hc
  decodeStuck hc := nomatch hc

/-- A load keeps the invariant of a safe machine. It moves `PC`, so a fault on record would no longer stand at it. -/
theorem load_inv {s t : State} {image : List Byte} (h : s.Inv) (hs : s.safe) (ht : s.load image = .next t) : t.Inv := by
  by_cases hlen : image.length ≤ maxImage
  · have hmem : Memory.wf s.cfg (s.writeBytes loadBase.toNat image).mem = true :=
      writeBytes_wf image s loadBase.toNat (loadBase_add_le_memSize hlen) h.memWf
    have hpc : loadBase.toNat ≤ 0x10FE := by decide
    have hsound : HandlerSound s (.ok (s.writeBytes loadBase.toNat image, .jump loadBase)) :=
      ⟨by rwa [writeBytes_cfg], by simpa using h.stackBound, writeBytes_fault .., hpc⟩
    exact complete_inv h hs hsound ((complete_ok ..).trans ((load_ok s hlen).symm.trans ht))
  · rw [load_refused s (Nat.lt_of_not_le hlen)] at ht
    cases ht

/-- Settles O59: reset meets the invariant with no fault on record, and a load then keeps it. -/
theorem invariantHoldsAtReset : Obligations.InvariantHoldsAtReset :=
  ⟨resetWith_inv defaultConfig, fun cfg _ _ ht => load_inv (resetWith_inv cfg) rfl ht⟩

end Sys2Proof.Machine
